-- ==== Sys2Proof/Word.lean ====
section
/-! DEFINITION. The word types of the core (R6): a byte is 8 bits, a word is 32 bits, every value is unsigned. -/

namespace Sys2Proof

/-- A byte, 8 bits (R6). -/
abbrev Byte := BitVec 8

/-- A word, 32 bits, arithmetic modulo 2^32 (R6, R7). -/
abbrev Word := BitVec 32

/-- Five words in order: a chaining value (h0, h1, h2, h3, h4) or the five working variables (a, b, c, d, e). -/
structure Words5 where
  a : Word
  b : Word
  c : Word
  d : Word
  e : Word
deriving DecidableEq, Repr

/-- The five words as a list, the first word first. -/
def Words5.toList (v : Words5) : List Word := [v.a, v.b, v.c, v.d, v.e]

end Sys2Proof
end

