-- ==== Sys2Proof/Config.lean ====
section
/-! DEFINITION. What the spec leaves to the platform and the values it leaves open. -/

namespace Sys2Proof

/-- FREE VALUE (U1, R23, R24, R230; log entry 3): the value the n-th host read of a DIGEST or HEX register returns while
DONE = 0. It has no body, so nothing can be proved about it; `State.freeIdx` supplies a new n at every such read, so two
reads need not agree. -/
opaque Config.freeWord : Nat → Word

/-- The capacity of the message buffer in `State.reset`. DESIGN CHOICE, unsafe (log entry 2): MSG_CAP is an OPEN parameter
with 0 <= MSG_CAP <= 2^61 - 1 (R5); the model carries it in `State.msgCap`, so that a statement about every state holds for
every capacity, and only the reset state needs a number. It is the largest the spec admits. -/
def Config.msgCap : Fin (2 ^ 61) := ⟨2 ^ 61 - 1, by decide⟩

end Sys2Proof
end

