-- ==== Sys2Proof/Syntax.lean ====
section
/-! DEFINITION. The instructions of the core (R70: sixteen micro-operations; R66: three host commands), the two forms in
which an instruction is issued, and what a host can send (R180). -/

namespace Sys2Proof

/-- One constructor per row of spec/opcode_table.json. A format X micro-operation carries the 7-bit `idx` field of its word
(R60, R61); which values are legal is `Instr.wf`. -/
inductive Instr where
  /-- INIT: load the initial constants (R101). -/
  | init
  /-- PCPY: copy the message into the padded buffer (R106). -/
  | pcpy
  /-- PMRK: append the marker byte (R107). -/
  | pmrk
  /-- PZER: append the zero bytes (R109). -/
  | pzer
  /-- PLEN: append the length field and fix the block count (R111). -/
  | plen
  /-- LDW j: load schedule word j from the block (R121). -/
  | ldw (j : BitVec 7)
  /-- EXP j: derive schedule word j (R123). -/
  | exp (j : BitVec 7)
  /-- SEED: copy the chaining state into the working registers (R131). -/
  | seed
  /-- RND.CH j: round j, 0 to 19 (R134). -/
  | rndCh (j : BitVec 7)
  /-- RND.PAR1 j: round j, 20 to 39 (R135). -/
  | rndPar1 (j : BitVec 7)
  /-- RND.MAJ j: round j, 40 to 59 (R136). -/
  | rndMaj (j : BitVec 7)
  /-- RND.PAR2 j: round j, 60 to 79 (R137). -/
  | rndPar2 (j : BitVec 7)
  /-- FOLD: add the working registers into the chaining state (R138). -/
  | fold
  /-- SER: serialize the chaining state into the digest (R150). -/
  | ser
  /-- HEX: render the digest as hexadecimal characters (R152). -/
  | hex
  /-- FIN: finish the hash (R154). -/
  | fin
  /-- START: a CTRL write with bit 0 set (R184). `clearFirst` is bit 1 of the same write: CLEAR is then applied first, in the
  same step (R185). -/
  | start (clearFirst : Bool)
  /-- CLEAR: a CTRL write with bit 1 set and bit 0 clear (R183). -/
  | clear
  /-- PUSH b: a MSG_PUSH write whose bits 7:0 are b (R186). -/
  | push (b : Byte)
deriving DecidableEq, Repr

/-- The two forms in which an instruction reaches execution: a micro-operation word of 11 bits that the sequencer forms from
its program counter (R60), or a 32-bit host write of a value to a register offset (R66). -/
inductive Code where
  | uop (w : BitVec 11)
  | hostWrite (off : Nat) (v : Word)
deriving DecidableEq, Repr

/-- The size of one host access. Only an aligned 32-bit access is defined (R26); the others exist so that the model can
refuse them by name (U5). -/
inductive AccessSize where
  | byte
  | halfword
  | word
  | doubleword
  | burst
deriving DecidableEq, Repr

/-- What the host can do in one step (R180): assert reset, read a register, write a register. `off` is the byte offset from
BASE. CLEAR, PUSH and START are writes (R66). -/
inductive HostAction where
  | reset
  | read (off : Nat) (size : AccessSize)
  | write (off : Nat) (size : AccessSize) (v : Word)
deriving DecidableEq, Repr

/-- Whose turn the next step is: the sequencer's or the host's (R9: the steps of the two interleave in any order). -/
inductive Turn where
  | core
  | host (a : HostAction)
deriving DecidableEq, Repr

end Sys2Proof
end

