-- ==== Sys2Proof/WellFormed.lean ====
section
/-! DEFINITION. Which instructions have an encoding: the index range of each format X micro-operation (R70, R72). -/

namespace Sys2Proof

/-- `lo` to `hi`, both included. -/
def idxWithin (lo hi : Nat) (j : BitVec 7) : Bool := decide (lo ≤ j.toNat) && decide (j.toNat ≤ hi)

/-- The index of a format X micro-operation lies in the range of its row of R70; every other instruction is well formed. -/
def Instr.wf : Instr → Bool
  | .init => true
  | .pcpy => true
  | .pmrk => true
  | .pzer => true
  | .plen => true
  | .ldw j => idxWithin 0 15 j
  | .exp j => idxWithin 16 79 j
  | .seed => true
  | .rndCh j => idxWithin 0 19 j
  | .rndPar1 j => idxWithin 20 39 j
  | .rndMaj j => idxWithin 40 59 j
  | .rndPar2 j => idxWithin 60 79 j
  | .fold => true
  | .ser => true
  | .hex => true
  | .fin => true
  | .start _ => true
  | .clear => true
  | .push _ => true

end Sys2Proof
end

