-- ==== Sys2Proof/Decode.lean ====
section
/-! DEFINITION. The decoder (R60 to R72), total on every micro-operation word and every host write, rejecting by name; after
it the encoder, written from the same tables. -/

namespace Sys2Proof

/-! ## Fields and op codes (R60, R70) -/

abbrev Op.idle : BitVec 4 := 0x0
abbrev Op.init : BitVec 4 := 0x1
abbrev Op.pcpy : BitVec 4 := 0x2
abbrev Op.pmrk : BitVec 4 := 0x3
abbrev Op.pzer : BitVec 4 := 0x4
abbrev Op.plen : BitVec 4 := 0x5
abbrev Op.ldw : BitVec 4 := 0x6
abbrev Op.exp : BitVec 4 := 0x7
abbrev Op.seed : BitVec 4 := 0x8
abbrev Op.rnd : BitVec 4 := 0x9
abbrev Op.fold : BitVec 4 := 0xA
abbrev Op.ser : BitVec 4 := 0xB
abbrev Op.hex : BitVec 4 := 0xC
abbrev Op.fin : BitVec 4 := 0xD

/-- `uop = op ++ idx` (R60). -/
def uopWord (op : BitVec 4) (idx : BitVec 7) : BitVec 11 := op ++ idx

/-- `uop[10:7]` (R60). -/
def uopOp (w : BitVec 11) : BitVec 4 := w.extractLsb' 7 4

/-- `uop[6:0]` (R60). -/
def uopIdx (w : BitVec 11) : BitVec 7 := w.extractLsb' 0 7

/-! ## The decoder -/

/-- Why a word names no instruction. -/
inductive DecodeError where
  /-- Op code 0x0 is the rest state IDLE, never executed (R71). -/
  | idleOp
  /-- Op codes 0xE and 0xF are reserved (R71). -/
  | reservedOp
  /-- A format N word with idx other than 0 (R72). -/
  | indexNotZero
  /-- LDW, EXP or RND with idx outside its range (R72). -/
  | indexOutOfRange
  /-- A CTRL write with both command bits 0 does nothing (R185). -/
  | noCommandBit
  /-- A write to an offset other than CTRL and MSG_PUSH is ignored (R182). -/
  | noCommandRegister
deriving DecidableEq, Repr

/-- Format N: idx must be 0000000 (R61). -/
def decodeN (idx : BitVec 7) (i : Instr) : Except DecodeError Instr :=
  if idx = 0 then .ok i else .error .indexNotZero

/-- Format X: idx is the operand j, in the row's range (R61, R70). -/
def decodeX (lo hi : Nat) (idx : BitVec 7) (mk : BitVec 7 → Instr) : Except DecodeError Instr :=
  if idxWithin lo hi idx then .ok (mk idx) else .error .indexOutOfRange

/-- The four RND forms share op code 0x9; the stage j div 20 tells them apart (R68, R70). -/
def decodeRnd (idx : BitVec 7) : Except DecodeError Instr :=
  match idx.toNat / 20 with
  | 0 => .ok (.rndCh idx)
  | 1 => .ok (.rndPar1 idx)
  | 2 => .ok (.rndMaj idx)
  | 3 => .ok (.rndPar2 idx)
  | _ => .error .indexOutOfRange

/-- The micro-operation a word names (R70), or why it names none (R71, R72). -/
def decodeUop (w : BitVec 11) : Except DecodeError Instr :=
  match (uopOp w).toNat with
  | 0x0 => .error .idleOp
  | 0x1 => decodeN (uopIdx w) .init
  | 0x2 => decodeN (uopIdx w) .pcpy
  | 0x3 => decodeN (uopIdx w) .pmrk
  | 0x4 => decodeN (uopIdx w) .pzer
  | 0x5 => decodeN (uopIdx w) .plen
  | 0x6 => decodeX 0 15 (uopIdx w) .ldw
  | 0x7 => decodeX 16 79 (uopIdx w) .exp
  | 0x8 => decodeN (uopIdx w) .seed
  | 0x9 => decodeRnd (uopIdx w)
  | 0xA => decodeN (uopIdx w) .fold
  | 0xB => decodeN (uopIdx w) .ser
  | 0xC => decodeN (uopIdx w) .hex
  | 0xD => decodeN (uopIdx w) .fin
  | _ => .error .reservedOp

/-- Offset of CTRL (R18, R19). -/
abbrev ctrlOff : Nat := 0x00
/-- Offset of STATUS (R18, R20). -/
abbrev statusOff : Nat := 0x04
/-- Offset of LEN_LO (R18, R21). -/
abbrev lenLoOff : Nat := 0x08
/-- Offset of LEN_HI (R18, R21). -/
abbrev lenHiOff : Nat := 0x0C
/-- Offset of MSG_PUSH (R18, R22). -/
abbrev msgPushOff : Nat := 0x10

/-- The command a 32-bit host write carries (R66, R19, R22): CTRL bit 0 is START and bit 1 CLEAR, bits 31:2 are ignored;
every MSG_PUSH write is a PUSH of its bits 7:0. -/
def decodeWrite (off : Nat) (v : Word) : Except DecodeError Instr :=
  if off = ctrlOff then
    if v.getLsbD 0 then .ok (.start (v.getLsbD 1))
    else if v.getLsbD 1 then .ok .clear
    else .error .noCommandBit
  else if off = msgPushOff then .ok (.push (v.extractLsb' 0 8))
  else .error .noCommandRegister

/-- The decoder of both forms. -/
def decode : Code → Except DecodeError Instr
  | .uop w => decodeUop w
  | .hostWrite off v => decodeWrite off v

/-! ## The encoder -/

/-- The word or the host write that stands for an instruction (R66, R70). Ignored bits are written 0. -/
def encode : Instr → Code
  | .init => .uop (uopWord Op.init 0)
  | .pcpy => .uop (uopWord Op.pcpy 0)
  | .pmrk => .uop (uopWord Op.pmrk 0)
  | .pzer => .uop (uopWord Op.pzer 0)
  | .plen => .uop (uopWord Op.plen 0)
  | .ldw j => .uop (uopWord Op.ldw j)
  | .exp j => .uop (uopWord Op.exp j)
  | .seed => .uop (uopWord Op.seed 0)
  | .rndCh j => .uop (uopWord Op.rnd j)
  | .rndPar1 j => .uop (uopWord Op.rnd j)
  | .rndMaj j => .uop (uopWord Op.rnd j)
  | .rndPar2 j => .uop (uopWord Op.rnd j)
  | .fold => .uop (uopWord Op.fold 0)
  | .ser => .uop (uopWord Op.ser 0)
  | .hex => .uop (uopWord Op.hex 0)
  | .fin => .uop (uopWord Op.fin 0)
  | .start clearFirst => .hostWrite ctrlOff (if clearFirst then 3 else 1)
  | .clear => .hostWrite ctrlOff 2
  | .push b => .hostWrite msgPushOff (b.setWidth 32)

/-! ## The opcode map as the spec prints it (R70) -/

/-- One row of R70: a word w is the row's micro-operation when (w AND mask) = match and idx lies in the range. -/
structure UopRow where
  pat : BitVec 11
  mask : BitVec 11
  lo : Nat
  hi : Nat
  make : BitVec 7 → Instr

/-- The sixteen rows of R70, column by column. -/
def uopRows : List UopRow :=
  [ ⟨0x080, 0x7FF, 0, 0, fun _ => .init⟩,
    ⟨0x100, 0x7FF, 0, 0, fun _ => .pcpy⟩,
    ⟨0x180, 0x7FF, 0, 0, fun _ => .pmrk⟩,
    ⟨0x200, 0x7FF, 0, 0, fun _ => .pzer⟩,
    ⟨0x280, 0x7FF, 0, 0, fun _ => .plen⟩,
    ⟨0x300, 0x7F0, 0, 15, .ldw⟩,
    ⟨0x380, 0x780, 16, 79, .exp⟩,
    ⟨0x400, 0x7FF, 0, 0, fun _ => .seed⟩,
    ⟨0x480, 0x780, 0, 19, .rndCh⟩,
    ⟨0x480, 0x780, 20, 39, .rndPar1⟩,
    ⟨0x480, 0x780, 40, 59, .rndMaj⟩,
    ⟨0x480, 0x780, 60, 79, .rndPar2⟩,
    ⟨0x500, 0x7FF, 0, 0, fun _ => .fold⟩,
    ⟨0x580, 0x7FF, 0, 0, fun _ => .ser⟩,
    ⟨0x600, 0x7FF, 0, 0, fun _ => .hex⟩,
    ⟨0x680, 0x7FF, 0, 0, fun _ => .fin⟩ ]

/-- The word w is the row's micro-operation (R70). -/
def UopRow.matches (r : UopRow) (w : BitVec 11) : Bool :=
  decide (w &&& r.mask = r.pat) && idxWithin r.lo r.hi (uopIdx w)

/-! ## Table words -/

/-- The issued code that a table word of `nbits` bits stands for. A row of 9 to 16 bits is a micro-operation word (11 bits, in
whole bytes); any other row is the 32-bit data of a host write, whose register is not among its bits: a word with a CTRL
command bit set is read as the CTRL write, any other as the MSG_PUSH write, since a CTRL write with neither bit is no command
(DESIGN CHOICE, log entry 8). -/
def tableCode (nbits w : Nat) : Option Code :=
  if 8 < nbits ∧ nbits ≤ 16 then
    if w < 2 ^ 11 then some (.uop (BitVec.ofNat 11 w)) else none
  else if w < 2 ^ 32 then
    if w % 4 = 0 then some (.hostWrite msgPushOff (BitVec.ofNat 32 w))
    else some (.hostWrite ctrlOff (BitVec.ofNat 32 w))
  else none

/-- The instruction the decoder reads from a table word. -/
def decodeTableWord (nbits w : Nat) : Option Instr :=
  match tableCode nbits w with
  | none => none
  | some c => (decode c).toOption

end Sys2Proof
end

