-- ==== Sys2Proof/Machine/State.lean ====
section
/-! DEFINITION. The state of the core as plain data (10_state.md), the reasons a step can stop, and the state after reset. -/

namespace Sys2Proof.Machine

/-- The sequencer's program counter, the triple (op, blk, j) (R14). -/
structure PC where
  /-- The code of the micro-operation of the next step; 0x0 (IDLE) when there is none. 4 bits. -/
  op : BitVec 4
  /-- The number of blocks already folded in this hash. 56 bits. -/
  blk : BitVec 56
  /-- The schedule word or round the next micro-operation works on. 7 bits. -/
  j : BitVec 7
deriving DecidableEq, Repr

/-- The rest value (IDLE, 0, 0) (R14). -/
def PC.idle : PC := ⟨Op.idle, 0, 0⟩

/-- A byte memory: the bytes that hold a value, by rising address. An address not listed holds no value (R8, R29 to R32). -/
abbrev Memory := List Host.Cell

/-- The four byte memories (R40). -/
inductive Space where
  | msg
  | pbuf
  | digest
  | hexstr
deriving DecidableEq, Repr

/-- A piece of state that can hold no value, named for a fault. -/
inductive Loc where
  | h (i : Nat)
  | a
  | b
  | c
  | d
  | e
  | w (j : Nat)
  | pl
  | nblk
  | byte (sp : Space) (addr : Nat)
deriving DecidableEq, Repr

/-- The state of the core, of its host side, and the model's parameter. `Option` is the spec's own state "invalid", also
written "holds no value" (R8, R36): `none` is what reset gives the register. -/
structure State where
  /-- MSG_CAP, the model's argument (R5, U12); no step changes it. -/
  msgCap : Fin (2 ^ 61)
  /-- The sequencer's program counter (R14). -/
  pc : PC
  /-- BUSY (R15). -/
  busy : Bool
  /-- DONE (R16). -/
  done : Bool
  /-- LEN, the number of message bytes in MSG (R21). -/
  len : BitVec 61
  /-- PL, the number of bytes of the padded message written so far (R34). -/
  pl : Option (BitVec 62)
  /-- NBLK, the number of blocks (R34). -/
  nblk : Option (BitVec 56)
  /-- The chaining registers H[0..4] (R10). -/
  h : Vector (Option Word) 5
  /-- The working registers A to E (R11). -/
  a : Option Word
  b : Option Word
  c : Option Word
  d : Option Word
  e : Option Word
  /-- TEMP (R12). -/
  temp : Option Word
  /-- The message schedule W[0..79], each entry with its valid mark (R28). -/
  w : Vector (Option Word) 80
  /-- MSG, the input buffer (R29). -/
  msg : Memory
  /-- PBUF, the padded buffer (R30). -/
  pbuf : Memory
  /-- DIGEST (R31). -/
  digest : Memory
  /-- HEXSTR (R32). -/
  hexstr : Memory
  /-- Whose turns the next steps are, the host's steps with what it sends (R9, R180). Empty: the host sends nothing more. -/
  turns : List Turn
  /-- What the host's latest register read returned, none before the first (R181). -/
  rdata : Option Word
  /-- MODEL'S OWN: how many free values have been used (U1; log entry 3). -/
  freeIdx : Nat
deriving DecidableEq, Repr

/-- Why a step stops with a fault. The core itself raises none (R200); each is a guard of the model (R207). -/
inductive Fault where
  /-- A rule reads a register, schedule entry or byte that holds no value: "a model must treat such a read as a fault" (R8,
  U3). Raised by the operand reads of Machine/Operands.lean and the loads of Machine/Ops.lean. Safe. -/
  | invalidRead (x : Loc)
  /-- A byte address outside its address space (R40, R57: there is no such access). Raised by the loads and stores of
  Machine/Ops.lean. Safe. -/
  | outOfBounds (sp : Space) (addr : Nat)
  /-- No step is enabled: the sequencer rests and the host sends nothing (U18, "stuck (by design)"). Raised by the step
  alone. Safe. -/
  | stuck
deriving DecidableEq, Repr

/-- Why a step is refused. -/
inductive Refusal where
  /-- The instruction has no meaning in the model. No arm of exec uses it. Safe. -/
  | notModelled (mnemonic : String)
  /-- A micro-operation word that matches no row of the opcode map, or an index outside its row: "there is no execute rule"
  (U6, R71, R72). Raised by the sequencer's step and by the format X meanings. Safe. -/
  | noMicroOp
  /-- A host access that is not one aligned 32-bit access (R26, U5). Raised by the host's step. Safe. -/
  | hostAccess
deriving DecidableEq, Repr

/-- The reset state for a given MSG_CAP (R36, R220): pc = (IDLE, 0, 0), BUSY = DONE = 0, LEN = 0, all else without a value. -/
def State.resetWith (cap : Fin (2 ^ 61)) : State where
  msgCap := cap
  pc := PC.idle
  busy := false
  done := false
  len := 0
  pl := none
  nblk := none
  h := Vector.replicate 5 none
  a := none
  b := none
  c := none
  d := none
  e := none
  temp := none
  w := Vector.replicate 80 none
  msg := []
  pbuf := []
  digest := []
  hexstr := []
  turns := []
  rdata := none
  freeIdx := 0

/-- The machine right after reset (R36). -/
def State.reset : State := State.resetWith Config.msgCap

end Sys2Proof.Machine
end

