-- ==== Sys2Proof/Machine/Prim.lean ====
section
/-! DEFINITION. The primitive functions (40_primitives.md) and the wired constants (R69). They read no state. -/

namespace Sys2Proof.Machine

/-! ## Words (R80 to R86) -/

/-- ADD32 (R80): the sum modulo 2^32. -/
def add32 (x y : Word) : Word := x + y

/-- NOT (R81). -/
def not32 (x : Word) : Word := ~~~x

/-- AND (R82). -/
def and32 (x y : Word) : Word := x &&& y

/-- OR (R83). -/
def or32 (x y : Word) : Word := x ||| y

/-- XOR (R84). -/
def xor32 (x y : Word) : Word := x ^^^ y

/-- A rotate amount: exactly the 31 values of 0 < r < 32, the domain of ROTL (R85, R86, U4). -/
abbrev RotAmt := { r : Nat // 0 < r ∧ r < 32 }

/-- ROTL (R85): the low 32 - r bits move up by r, the high r bits re-enter at the bottom. -/
def rotl (n : Word) (r : RotAmt) : Word := (n <<< r.val) ||| (n >>> (32 - r.val))

/-- The three amounts the core uses, each fixed wiring (R85). -/
def rot1 : RotAmt := ⟨1, by decide⟩
/-- See `rot1`. -/
def rot5 : RotAmt := ⟨5, by decide⟩
/-- See `rot1`. -/
def rot30 : RotAmt := ⟨30, by decide⟩

/-! ## Round functions (R87 to R89) and constants (R69, R101, R133) -/

/-- CH (R87). -/
def ch (b c d : Word) : Word := or32 (and32 b c) (and32 (not32 b) d)

/-- PAR (R88). -/
def par (b c d : Word) : Word := xor32 (xor32 b c) d

/-- MAJ (R89). -/
def maj (b c d : Word) : Word := or32 (or32 (and32 b c) (and32 b d)) (and32 c d)

/-- The initial constants IV[0..4] (R101). -/
def iv : Words5 := ⟨0x67452301, 0xEFCDAB89, 0x98BADCFE, 0x10325476, 0xC3D2E1F0⟩

/-- K[0], rounds 0 to 19 (R133). -/
def k0 : Word := 0x5A827999
/-- K[1], rounds 20 to 39 (R133). -/
def k1 : Word := 0x6ED9EBA1
/-- K[2], rounds 40 to 59 (R133). -/
def k2 : Word := 0x8F1BBCDC
/-- K[3], rounds 60 to 79 (R133). -/
def k3 : Word := 0xCA62C1D6

/-- TEMP of a round (R132): ROTL(a, 5) + f + e + k + w modulo 2^32. -/
def roundTemp (f : Word → Word → Word → Word) (k w : Word) (v : Words5) : Word :=
  add32 (add32 (add32 (add32 (rotl v.a rot5) (f v.b v.c v.d)) v.e) k) w

/-- The five working variables after a round, all from the values before it (R132). -/
def roundWords (f : Word → Word → Word → Word) (k w : Word) (v : Words5) : Words5 :=
  ⟨roundTemp f k w v, v.a, rotl v.b rot30, v.c, v.d⟩

/-- The expansion recurrence on its four taps w[j-3], w[j-8], w[j-14], w[j-16] (R122). -/
def expandWord (w3 w8 w14 w16 : Word) : Word := rotl (xor32 (xor32 (xor32 w3 w8) w14) w16) rot1

/-- The five sums of FOLD (R138). -/
def foldWords (h v : Words5) : Words5 :=
  ⟨add32 h.a v.a, add32 h.b v.b, add32 h.c v.c, add32 h.d v.d, add32 h.e v.e⟩

/-! ## Counters (R91, R92, R108, R113) -/

/-- LEN8 (R91): the message length in bits, truncated to 64 bits. -/
def len8 (l : Nat) : BitVec 64 := BitVec.ofNat 64 (l * 8)

/-- ZCOUNT (R92): (55 - L) mod 64, in 0..63 also where 55 - L is negative. -/
def zcount (l : Nat) : Nat := ((55 - (l : Int)) % 64).toNat

/-- The zero count as PZER evaluates it from PL (R108): (56 - PL) mod 64. -/
def zcountOfPl (pl : Nat) : Nat := ((56 - (pl : Int)) % 64).toNat

/-- PBUF_CAP = 64 * ceil((MSG_CAP + 9) / 64) (R5). -/
def pbufCap (cap : Nat) : Nat := 64 * ((cap + 9 + 63) / 64)

/-! ## Big-endian packing (R94 to R97) -/

/-- BE32 (R94): the first byte is the most significant. -/
def be32 (s0 s1 s2 s3 : Byte) : Word := s0 ++ s1 ++ s2 ++ s3

/-- UNBE32 (R96). -/
def unbe32 (v : Word) : List Byte :=
  [v.extractLsb' 24 8, v.extractLsb' 16 8, v.extractLsb' 8 8, v.extractLsb' 0 8]

/-- BE64 (R95). The core never computes it; it states the padding's postcondition (R116). -/
def be64 (s0 s1 s2 s3 s4 s5 s6 s7 : Byte) : BitVec 64 := s0 ++ s1 ++ s2 ++ s3 ++ s4 ++ s5 ++ s6 ++ s7

/-- UNBE64 (R97). -/
def unbe64 (v : BitVec 64) : List Byte :=
  [v.extractLsb' 56 8, v.extractLsb' 48 8, v.extractLsb' 40 8, v.extractLsb' 32 8,
   v.extractLsb' 24 8, v.extractLsb' 16 8, v.extractLsb' 8 8, v.extractLsb' 0 8]

/-- The five words of a chaining value as 20 bytes (R64, R150). -/
def digestBytes (v : Words5) : List Byte :=
  unbe32 v.a ++ unbe32 v.b ++ unbe32 v.c ++ unbe32 v.d ++ unbe32 v.e

/-! ## Hexadecimal rendering (R98, R99) -/

/-- HEXCHAR (R98): 0x30 + n for n <= 9 and 0x57 + n for n >= 10. -/
def hexChar (n : BitVec 4) : Byte :=
  if n.toNat ≤ 9 then 0x30 + n.setWidth 8 else 0x57 + n.setWidth 8

/-- HEXBYTE (R99): the high four bits first, always two characters. -/
def hexByte (x : Byte) : List Byte := [hexChar (x.extractLsb' 4 4), hexChar (x.extractLsb' 0 4)]

/-- The characters of a byte sequence, two a byte (R152). -/
def hexBytes : List Byte → List Byte
  | [] => []
  | x :: xs => hexByte x ++ hexBytes xs

end Sys2Proof.Machine
end

