-- ==== Sys2Proof/Machine/Ops.lean ====
section
/-! DEFINITION. The named operations over memories and registers that the meanings share. The core takes no exception (R200,
R205), so there is no exception entry and no return from one among them. -/

namespace Sys2Proof.Machine

/-! ## Byte memories (R8, R40) -/

/-- The canonical form: addresses strictly rising. An unlisted address holds no value, so no entry can equal what it reads
as. -/
abbrev Memory.wf (m : Memory) : Prop := m.Pairwise (fun x y => x.1 < y.1)

/-- The byte at an address, `none` where it holds no value. -/
def Memory.read : Memory → Nat → Option Byte
  | [], _ => none
  | (k, v) :: m, a => if k = a then some v else Memory.read m a

/-- Write one byte, keeping the addresses in rising order. -/
def Memory.write : Memory → Nat → Byte → Memory
  | [], a, v => [(a, v)]
  | (k, x) :: m, a, v =>
    if a < k then (a, v) :: (k, x) :: m
    else if a = k then (a, v) :: m
    else (k, x) :: Memory.write m a v

/-- MemWrite (R8): the bytes of a sequence at rising addresses from `a`. -/
def Memory.writeList : Memory → Nat → List Byte → Memory
  | m, _, [] => m
  | m, a, v :: vs => Memory.writeList (Memory.write m a v) (a + 1) vs

/-! ## Outcomes -/

/-- Go on with an operand, or stop with the fault its read raised. -/
def onOk {α : Type} (x : Except Fault α) (k : α → Host.Outcome State Fault Refusal) : Host.Outcome State Fault Refusal :=
  match x with
  | .ok v => k v
  | .error f => .fault f

/-- The value of a register, entry or byte. A read of one that holds none stops with a fault: "a model must treat such a read as
a fault, not as a number" (R8), "never substitutes 0 or a leftover" (U3); R207 names this stop, and R236 says that no run
reaches it. -/
def valueOf {α : Type} (x : Loc) : Option α → Except Fault α
  | some v => .ok v
  | none => .error (.invalidRead x)

/-! ## Loads and stores -/

/-- Read one byte of a space of `cap` bytes. -/
def loadByte (sp : Space) (cap : Nat) (m : Memory) (a : Nat) : Except Fault Byte :=
  if a < cap then valueOf (.byte sp a) (m.read a) else .error (.outOfBounds sp a)

/-- MemRead (R8): `n` bytes from `a`, in ascending address order. -/
def loadBytes (sp : Space) (cap : Nat) (m : Memory) : Nat → Nat → Except Fault (List Byte)
  | _, 0 => .ok []
  | a, n + 1 =>
    match loadByte sp cap m a with
    | .error f => .error f
    | .ok v =>
      match loadBytes sp cap m (a + 1) n with
      | .error f => .error f
      | .ok vs => .ok (v :: vs)

/-- Four bytes at an address as one big-endian word (R41, R44). -/
def load32 (sp : Space) (cap : Nat) (m : Memory) (a : Nat) : Except Fault Word :=
  match loadBytes sp cap m a 4 with
  | .error f => .error f
  | .ok [s0, s1, s2, s3] => .ok (be32 s0 s1 s2 s3)
  | .ok _ => .error (.outOfBounds sp a)

/-- MemWrite (R8) inside a space of `cap` bytes; writing no byte touches no address. -/
def storeBytes (sp : Space) (cap : Nat) (m : Memory) (a : Nat) (vs : List Byte) : Except Fault Memory :=
  if vs = [] ∨ a + vs.length ≤ cap then .ok (m.writeList a vs) else .error (.outOfBounds sp a)

/-! ## Register updates -/

def State.setPc (s : State) (p : PC) : State := { s with pc := p }
def State.setBusy (s : State) (v : Bool) : State := { s with busy := v }
def State.setDone (s : State) (v : Bool) : State := { s with done := v }
def State.setLen (s : State) (v : BitVec 61) : State := { s with len := v }
def State.setPl (s : State) (v : BitVec 62) : State := { s with pl := some v }
def State.setNblk (s : State) (v : BitVec 56) : State := { s with nblk := some v }

/-- Write H[0..4]. -/
def State.setH (s : State) (v : Words5) : State :=
  { s with h := #v[some v.a, some v.b, some v.c, some v.d, some v.e] }

/-- Write A, B, C, D, E. -/
def State.setWork (s : State) (v : Words5) : State :=
  { s with a := some v.a, b := some v.b, c := some v.c, d := some v.d, e := some v.e }

def State.setTemp (s : State) (v : Word) : State := { s with temp := some v }

/-- Write W[j] and mark it valid (R8, R28). -/
def State.setW (s : State) (j : Nat) (v : Word) : State := { s with w := s.w.setIfInBounds j (some v) }

/-- Clear all 80 valid marks of W (R28). -/
def State.invalidateW (s : State) : State := { s with w := Vector.replicate 80 none }

def State.setMsg (s : State) (m : Memory) : State := { s with msg := m }
def State.setPbuf (s : State) (m : Memory) : State := { s with pbuf := m }
def State.setDigest (s : State) (m : Memory) : State := { s with digest := m }
def State.setHexstr (s : State) (m : Memory) : State := { s with hexstr := m }
def State.setTurns (s : State) (ts : List Turn) : State := { s with turns := ts }
def State.setRdata (s : State) (v : Word) : State := { s with rdata := some v }

/-- One more free value has been used. -/
def State.bumpFree (s : State) : State := { s with freeIdx := s.freeIdx + 1 }

/-! ## Shared effects -/

/-- Append bytes to PBUF at PL and count them (R30): what PMRK, PZER and PLEN each do. -/
def appendPbuf (pl : BitVec 62) (vs : List Byte) (s : State) : Except Fault State :=
  match storeBytes .pbuf (pbufCap s.msgCap) s.pbuf pl.toNat vs with
  | .error f => .error f
  | .ok m => .ok ((s.setPbuf m).setPl (pl + BitVec.ofNat 62 vs.length))

/-- The counted loop over j (R163): the next index of the same op code up to `last`, then `after`. -/
def loopPc (op : BitVec 4) (last : Nat) (after : PC) (blk : BitVec 56) (j : BitVec 7) : PC :=
  if j.toNat < last then ⟨op, blk, j + 1⟩ else after

/-- The FOLD test (R162, R164): `blk + 1 < NBLK` goes on to the next block, otherwise to SER. -/
def foldPc (blk nblk : BitVec 56) : PC :=
  if blk.toNat + 1 < nblk.toNat then ⟨Op.ldw, blk + 1, 0⟩ else ⟨Op.ser, blk + 1, 0⟩

/-- The reset event (R220): the reset state for the same MSG_CAP. The host's own side, what it is about to send and what it
last read, is no state of the core and stays. -/
def State.toReset (s : State) : State :=
  { State.resetWith s.msgCap with turns := s.turns, rdata := s.rdata, freeIdx := s.freeIdx }

end Sys2Proof.Machine
end

