-- ==== Sys2Proof/Machine/Operands.lean ====
section
/-! DEFINITION. The operand forms: registers that may hold no value (R8), the index of a format X micro-operation (R67) and the
addresses and taps formed from it. -/

namespace Sys2Proof.Machine

/-- H[0..4], each of which must hold a value (R8, R10). -/
def readH (s : State) : Except Fault Words5 := do
  let h0 ← valueOf (.h 0) s.h[0]
  let h1 ← valueOf (.h 1) s.h[1]
  let h2 ← valueOf (.h 2) s.h[2]
  let h3 ← valueOf (.h 3) s.h[3]
  let h4 ← valueOf (.h 4) s.h[4]
  return ⟨h0, h1, h2, h3, h4⟩

/-- A, B, C, D, E, each of which must hold a value (R8, R11). -/
def readWork (s : State) : Except Fault Words5 := do
  let a ← valueOf .a s.a
  let b ← valueOf .b s.b
  let c ← valueOf .c s.c
  let d ← valueOf .d s.d
  let e ← valueOf .e s.e
  return ⟨a, b, c, d, e⟩

/-- W[n] if the entry exists and is marked valid. -/
def State.wAt (s : State) (n : Nat) : Option Word := (s.w[n]?).join

/-- W[n], which must be marked valid (R28). -/
def readW (s : State) (n : Nat) : Except Fault Word := valueOf (.w n) (s.wAt n)

def readPl (s : State) : Except Fault (BitVec 62) := valueOf .pl s.pl

def readNblk (s : State) : Except Fault (BitVec 56) := valueOf .nblk s.nblk

/-- A format X operand outside its row's range belongs to no micro-operation (R72, U6). -/
def withIdx (lo hi : Nat) (j : BitVec 7) (k : Host.Outcome State Fault Refusal) : Host.Outcome State Fault Refusal :=
  if idxWithin lo hi j then k else .refused .noMicroOp

/-- The PBUF byte address LDW forms (R67, R121): 64 * blk + 4 * j. -/
def ldwAddr (blk : BitVec 56) (j : BitVec 7) : Nat := 64 * blk.toNat + 4 * j.toNat

/-- The stage of a round index (R68). -/
def stage (j : Nat) : Nat := j / 20

/-- The round function of a stage (R68). -/
def stageFn : Nat → Word → Word → Word → Word
  | 0 => ch
  | 1 => par
  | 2 => maj
  | _ => par

/-- The round constant of a stage (R68, R133). -/
def stageK : Nat → Word
  | 0 => k0
  | 1 => k1
  | 2 => k2
  | _ => k3

end Sys2Proof.Machine
end

