-- ==== Sys2Proof/Machine/Flags.lean ====
section
/-! DEFINITION. The flags. The core has no condition codes; it has BUSY and DONE, stored, and FULL, computed (R15 to R17). -/

namespace Sys2Proof.Machine

/-- FULL (R17): LEN = MSG_CAP. -/
def State.full (s : State) : Bool := decide (s.len.toNat = s.msgCap.val)

/-- The STATUS register (R20): bit 0 BUSY, bit 1 DONE, bit 2 FULL, bits 31:3 zero. -/
def statusWord (s : State) : Word :=
  0#29 ++ BitVec.ofBool s.full ++ BitVec.ofBool s.done ++ BitVec.ofBool s.busy

/-- What an accepted START does (R184): BUSY, DONE, the valid marks of W and the pc. -/
def beginHash (s : State) : State :=
  (((s.setBusy true).setDone false).invalidateW).setPc ⟨Op.init, 0, 0⟩

/-- What FIN does (R154). -/
def endHash (s : State) : State := ((s.setDone true).setBusy false).setPc PC.idle

/-- What an accepted CLEAR does (R183). -/
def clearMessage (s : State) : State := s.setLen 0

end Sys2Proof.Machine
end

