-- ==== Sys2Proof/Machine/Commands.lean ====
section
/-! DEFINITION. The host commands START, CLEAR, PUSH (47_host_interface.md). Each is ignored while BUSY = 1 (R187). -/

namespace Sys2Proof.Machine

/-- START (R184); with `clearFirst`, CLEAR first and then START in one step (R185). -/
def execStart (clearFirst : Bool) (s : State) : Host.Outcome State Fault Refusal :=
  if s.busy then .next s
  else .next (beginHash (if clearFirst then clearMessage s else s))

/-- CLEAR (R183). -/
def execClear (s : State) : Host.Outcome State Fault Refusal :=
  if s.busy then .next s else .next (clearMessage s)

/-- PUSH b (R186): also ignored while FULL. -/
def execPush (b : Byte) (s : State) : Host.Outcome State Fault Refusal :=
  if !s.busy && decide (s.len.toNat < s.msgCap.val) then
    .next ((s.setMsg (s.msg.write s.len.toNat b)).setLen (s.len + 1))
  else .next s

end Sys2Proof.Machine
end

