-- ==== Sys2Proof/Machine/Compression.lean ====
section
/-! DEFINITION. Compression Round: SEED, RND.CH, RND.PAR1, RND.MAJ, RND.PAR2, FOLD (44_compression.md). -/

namespace Sys2Proof.Machine

/-- SEED (R131). -/
def execSeed (s : State) : Host.Outcome State Fault Refusal :=
  onOk (readH s) fun h =>
  .next ((s.setWork h).setPc ⟨Op.rnd, s.pc.blk, 0⟩)

/-- The round step of every RND micro-operation (R132), with its round function and constant. -/
def roundStep (f : Word → Word → Word → Word) (k : Word) (j : BitVec 7) (s : State) : Host.Outcome State Fault Refusal :=
  onOk (readWork s) fun v =>
  onOk (readW s j.toNat) fun w =>
  .next (((s.setTemp (roundTemp f k w v)).setWork (roundWords f k w v)).setPc
    (loopPc Op.rnd 79 ⟨Op.fold, s.pc.blk, 0⟩ s.pc.blk j))

/-- RND.CH j (R134). -/
def execRndCh (j : BitVec 7) (s : State) : Host.Outcome State Fault Refusal :=
  withIdx 0 19 j (roundStep ch k0 j s)

/-- RND.PAR1 j (R135). -/
def execRndPar1 (j : BitVec 7) (s : State) : Host.Outcome State Fault Refusal :=
  withIdx 20 39 j (roundStep par k1 j s)

/-- RND.MAJ j (R136). -/
def execRndMaj (j : BitVec 7) (s : State) : Host.Outcome State Fault Refusal :=
  withIdx 40 59 j (roundStep maj k2 j s)

/-- RND.PAR2 j (R137). -/
def execRndPar2 (j : BitVec 7) (s : State) : Host.Outcome State Fault Refusal :=
  withIdx 60 79 j (roundStep par k3 j s)

/-- FOLD (R138). -/
def execFold (s : State) : Host.Outcome State Fault Refusal :=
  onOk (readH s) fun h =>
  onOk (readWork s) fun v =>
  onOk (readNblk s) fun n =>
  .next (((s.setH (foldWords h v)).invalidateW).setPc (foldPc s.pc.blk n))

end Sys2Proof.Machine
end

