-- ==== Sys2Proof/Machine/Digest.lean ====
section
/-! DEFINITION. Digest Assembler: SER, HEX, FIN (45_digest.md). -/

namespace Sys2Proof.Machine

/-- SER (R150). -/
def execSer (s : State) : Host.Outcome State Fault Refusal :=
  onOk (readH s) fun h =>
  onOk (storeBytes .digest 20 s.digest 0 (digestBytes h)) fun m =>
  .next ((s.setDigest m).setPc ⟨Op.hex, s.pc.blk, 0⟩)

/-- HEX (R152). -/
def execHex (s : State) : Host.Outcome State Fault Refusal :=
  onOk (loadBytes .digest 20 s.digest 0 20) fun xs =>
  onOk (storeBytes .hexstr 40 s.hexstr 0 (hexBytes xs)) fun m =>
  .next ((s.setHexstr m).setPc ⟨Op.fin, s.pc.blk, 0⟩)

/-- FIN (R154). -/
def execFin (s : State) : Host.Outcome State Fault Refusal := .next (endHash s)

end Sys2Proof.Machine
end

