-- ==== Sys2Proof/Machine/Initializer.lean ====
section
/-! DEFINITION. State Initializer: INIT (41_init.md). -/

namespace Sys2Proof.Machine

/-- INIT (R101). -/
def execInit (s : State) : Host.Outcome State Fault Refusal :=
  .next ((s.setH iv).setPc ⟨Op.pcpy, 0, 0⟩)

end Sys2Proof.Machine
end

