-- ==== Sys2Proof/Machine/Padding.lean ====
section
/-! DEFINITION. Padding Stage: PCPY, PMRK, PZER, PLEN (42_padding.md). -/

namespace Sys2Proof.Machine

/-- PCPY (R106). -/
def execPcpy (s : State) : Host.Outcome State Fault Refusal :=
  onOk (loadBytes .msg s.msgCap s.msg 0 s.len.toNat) fun vs =>
  onOk (storeBytes .pbuf (pbufCap s.msgCap) s.pbuf 0 vs) fun m =>
  .next (((s.setPbuf m).setPl (s.len.setWidth 62)).setPc ⟨Op.pmrk, 0, 0⟩)

/-- PMRK (R107). -/
def execPmrk (s : State) : Host.Outcome State Fault Refusal :=
  onOk (readPl s) fun pl =>
  onOk (appendPbuf pl [0x80] s) fun t =>
  .next (t.setPc ⟨Op.pzer, 0, 0⟩)

/-- PZER (R109). -/
def execPzer (s : State) : Host.Outcome State Fault Refusal :=
  onOk (readPl s) fun pl =>
  onOk (appendPbuf pl (List.replicate (zcountOfPl pl.toNat) 0x00) s) fun t =>
  .next (t.setPc ⟨Op.plen, 0, 0⟩)

/-- PLEN (R111): NBLK is the new PL divided by 64. -/
def execPlen (s : State) : Host.Outcome State Fault Refusal :=
  onOk (readPl s) fun pl =>
  onOk (appendPbuf pl (unbe64 (len8 s.len.toNat)) s) fun t =>
  .next ((t.setNblk (BitVec.ofNat 56 ((pl.toNat + 8) / 64))).setPc ⟨Op.ldw, 0, 0⟩)

end Sys2Proof.Machine
end

