-- ==== Sys2Proof/Machine/Schedule.lean ====
section
/-! DEFINITION. Block Scheduler: LDW, EXP (43_schedule.md). -/

namespace Sys2Proof.Machine

/-- LDW j (R121). -/
def execLdw (j : BitVec 7) (s : State) : Host.Outcome State Fault Refusal :=
  withIdx 0 15 j <|
  onOk (load32 .pbuf (pbufCap s.msgCap) s.pbuf (ldwAddr s.pc.blk j)) fun v =>
  .next ((s.setW j.toNat v).setPc (loopPc Op.ldw 15 ⟨Op.exp, s.pc.blk, 16⟩ s.pc.blk j))

/-- EXP j (R123). -/
def execExp (j : BitVec 7) (s : State) : Host.Outcome State Fault Refusal :=
  withIdx 16 79 j <|
  onOk (readW s (j.toNat - 3)) fun w3 =>
  onOk (readW s (j.toNat - 8)) fun w8 =>
  onOk (readW s (j.toNat - 14)) fun w14 =>
  onOk (readW s (j.toNat - 16)) fun w16 =>
  .next ((s.setW j.toNat (expandWord w3 w8 w14 w16)).setPc (loopPc Op.exp 79 ⟨Op.seed, s.pc.blk, 0⟩ s.pc.blk j))

end Sys2Proof.Machine
end

