-- ==== Sys2Proof/Machine/Dispatch.lean ====
section
/-! DEFINITION. The meaning of every instruction: one arm per constructor of Instr. -/

namespace Sys2Proof.Machine

def exec (i : Instr) (s : State) : Host.Outcome State Fault Refusal :=
  match i with
  | .init => Sys2Proof.Machine.execInit s
  | .pcpy => Sys2Proof.Machine.execPcpy s
  | .pmrk => Sys2Proof.Machine.execPmrk s
  | .pzer => Sys2Proof.Machine.execPzer s
  | .plen => Sys2Proof.Machine.execPlen s
  | .ldw j => Sys2Proof.Machine.execLdw j s
  | .exp j => Sys2Proof.Machine.execExp j s
  | .seed => Sys2Proof.Machine.execSeed s
  | .rndCh j => Sys2Proof.Machine.execRndCh j s
  | .rndPar1 j => Sys2Proof.Machine.execRndPar1 j s
  | .rndMaj j => Sys2Proof.Machine.execRndMaj j s
  | .rndPar2 j => Sys2Proof.Machine.execRndPar2 j s
  | .fold => Sys2Proof.Machine.execFold s
  | .ser => Sys2Proof.Machine.execSer s
  | .hex => Sys2Proof.Machine.execHex s
  | .fin => Sys2Proof.Machine.execFin s
  | .start clearFirst => Sys2Proof.Machine.execStart clearFirst s
  | .clear => Sys2Proof.Machine.execClear s
  | .push b => Sys2Proof.Machine.execPush b s

end Sys2Proof.Machine
end

