-- ==== Sys2Proof/Machine/Turns.lean ====
section
/-! DEFINITION. One step of each agent: the sequencer (46_sequencer.md) and the host (47_host_interface.md), and whose turn it
is. -/

namespace Sys2Proof.Machine

/-! ## The sequencer -/

/-- The micro-operation word the sequencer forms from its pc (R14, R60). -/
def fetchWord (s : State) : BitVec 11 := uopWord s.pc.op s.pc.j

/-- One micro-operation. A word that names none is refused (R71, U6). -/
def runUop (s : State) : Host.Outcome State Fault Refusal :=
  match decodeUop (fetchWord s) with
  | .ok i => exec i s
  | .error _ => .refused .noMicroOp

/-! ## Host reads (R181) -/

/-- The result memory and byte address a DIGEST or HEX register shows (R18, R23, R24). -/
def resultReg (off : Nat) : Option (Space × Nat) :=
  if 0x20 ≤ off ∧ off ≤ 0x30 then some (.digest, off - 0x20)
  else if 0x40 ≤ off ∧ off ≤ 0x64 then some (.hexstr, off - 0x40)
  else none

/-- The four bytes of a result register as one big-endian word (R23, R24). -/
def loadResult (s : State) : Space × Nat → Except Fault Word
  | (.hexstr, a) => load32 .hexstr 40 s.hexstr a
  | (_, a) => load32 .digest 20 s.digest a

/-- STATUS, LEN_LO, LEN_HI (R20, R21); CTRL, MSG_PUSH and every reserved offset read 0 (R19, R22, R25). -/
def plainReg (s : State) (off : Nat) : Word :=
  if off = statusOff then statusWord s
  else if off = lenLoOff then s.len.extractLsb' 0 32
  else if off = lenHiOff then (s.len.extractLsb' 32 29).setWidth 32
  else 0

/-- A register read. While DONE = 0 a result register returns a free value (R230, U1; log entry 3). -/
def hostRead (off : Nat) (s : State) : Host.Outcome State Fault Refusal :=
  match resultReg off with
  | none => .next (s.setRdata (plainReg s off))
  | some r =>
    if s.done then onOk (loadResult s r) fun v => .next (s.setRdata v)
    else .next ((s.setRdata (Config.freeWord s.freeIdx)).bumpFree)

/-! ## Host writes and reset -/

/-- A register write (R182): the command it carries, or nothing. -/
def hostWrite (off : Nat) (v : Word) (s : State) : Host.Outcome State Fault Refusal :=
  match decodeWrite off v with
  | .ok i => exec i s
  | .error _ => .next s

/-- Only an aligned 32-bit access is defined (R26, U5). -/
def legalAccess (off : Nat) (size : AccessSize) : Bool := decide (size = .word) && decide (off % 4 = 0)

/-- One step of the host (R180). -/
def hostStep (a : HostAction) (s : State) : Host.Outcome State Fault Refusal :=
  match a with
  | .reset => .next s.toReset
  | .read off size => if legalAccess off size then hostRead off s else .refused .hostAccess
  | .write off size v => if legalAccess off size then hostWrite off v s else .refused .hostAccess

/-! ## Whose turn (R9, R204) -/

/-- One step of the machine. The turns say which agent moves; when none is left the sequencer goes on alone. A turn of a
resting sequencer passes (log entry 5); with no turn left and the sequencer at rest no step is enabled (U18). -/
def takeTurn (s : State) : Host.Outcome State Fault Refusal :=
  match s.turns with
  | [] => if s.busy then runUop s else .fault .stuck
  | .core :: ts => if s.busy then runUop (s.setTurns ts) else .next (s.setTurns ts)
  | .host a :: ts => hostStep a (s.setTurns ts)

/-- Make the next step issue a code: the pc and BUSY for a micro-operation word, the host's turn for a write. -/
def placeCode (c : Code) (s : State) : State :=
  match c with
  | .uop w => ((s.setPc ⟨uopOp w, s.pc.blk, uopIdx w⟩).setBusy true).setTurns (.core :: s.turns)
  | .hostWrite off v => s.setTurns (.host (.write off .word v) :: s.turns)

end Sys2Proof.Machine
end

