-- ==== Sys2Proof/Machine/Step.lean ====
section
/-! DEFINITION. One step of the machine, and where an instruction is placed for it. -/

namespace Sys2Proof.Machine

/-- One atomic step of one agent (R9). -/
def step (s : State) : Host.Outcome State Fault Refusal := takeTurn s

/-- `s` with a table word placed so that the very next step runs it (log entry 8). A word with bits above its 11 or 32 bits
names no code and changes nothing. -/
def State.withFetchWord (s : State) (nbits w : Nat) : State :=
  match tableCode nbits w with
  | some c => placeCode c s
  | none => s

end Sys2Proof.Machine
end

