-- ==== Sys2Proof/Machine/Hash.lean ====
section
/-! DEFINITION. The function HASH computes (R105, R120, R130, R139, R160) and the micro-operation program and host procedure
that compute it (R74, R161, R190). They read no state: they are what the sequencer's runs are held against. -/

namespace Sys2Proof.Machine

/-! ## Padding (R105) -/

/-- pad(m) = m ++ (0x80) ++ zero bytes ++ UNBE64(LEN8(L)) (R105). -/
def pad (m : List Byte) : List Byte :=
  m ++ [0x80] ++ List.replicate (zcount m.length) 0x00 ++ unbe64 (len8 m.length)

/-- The number of blocks of pad(m) (R160). -/
def numBlocks (m : List Byte) : Nat := (pad m).length / 64

/-- Block i of a padded sequence, P[64i..64i+64) (R120, R160). -/
def blockOf (p : List Byte) (i : Nat) : List Byte := (p.drop (64 * i)).take 64

/-! ## Message schedule (R120 to R123) -/

/-- Word j of a block (R62, R121). -/
def blockWord (x : List Byte) (j : Nat) : Word :=
  be32 (x.getD (4 * j) 0) (x.getD (4 * j + 1) 0) (x.getD (4 * j + 2) 0) (x.getD (4 * j + 3) 0)

/-- The first n words of the schedule of a block (R121, R122). -/
def scheduleUpTo (x : List Byte) : Nat → List Word
  | 0 => []
  | n + 1 =>
    let ws := scheduleUpTo x n
    ws ++ [if n < 16 then blockWord x n
      else expandWord (ws.getD (n - 3) 0) (ws.getD (n - 8) 0) (ws.getD (n - 14) 0) (ws.getD (n - 16) 0)]

/-- w[j] of a block (R120). -/
def scheduleWord (x : List Byte) (j : Nat) : Word := (scheduleUpTo x (j + 1)).getD j 0

/-! ## Compression (R130 to R139) -/

/-- The working variables before round n, seeded with h (R130, R132). -/
def roundsUpTo (w : Nat → Word) (h : Words5) : Nat → Words5
  | 0 => h
  | n + 1 => roundWords (stageFn (stage n)) (stageK (stage n)) (w n) (roundsUpTo w h n)

/-- compress(h, x) (R139). -/
def compress (h : Words5) (x : List Byte) : Words5 := foldWords h (roundsUpTo (scheduleWord x) h 80)

/-! ## The whole message (R160) -/

/-- The chaining value after the first n blocks: the left fold of compress from IV (R139, R160). -/
def chain (m : List Byte) : Nat → Words5
  | 0 => iv
  | n + 1 => compress (chain m n) (blockOf (pad m) n)

/-- The 20-byte digest (R160). -/
def digestOf (m : List Byte) : List Byte := digestBytes (chain m (numBlocks m))

/-- hash(m), the 40 characters (R160). -/
def hashOf (m : List Byte) : List Byte := hexBytes (digestOf m)

/-! ## The program (R74, R161) -/

/-- RND j, whichever of the four forms R68 gives for j (R73). -/
def rndAt (j : Nat) : Instr :=
  match stage j with
  | 0 => .rndCh (BitVec.ofNat 7 j)
  | 1 => .rndPar1 (BitVec.ofNat 7 j)
  | 2 => .rndMaj (BitVec.ofNat 7 j)
  | _ => .rndPar2 (BitVec.ofNat 7 j)

/-- The 162 micro-operations of one block (R161): LDW 0..15, EXP 16..79, SEED, RND 0..79, FOLD. -/
def blockProgram : List Instr :=
  (List.range 16).map (fun j => .ldw (BitVec.ofNat 7 j))
    ++ (List.range 64).map (fun j => .exp (BitVec.ofNat 7 (16 + j)))
    ++ [.seed] ++ (List.range 80).map rndAt ++ [.fold]

/-- HASH: the program of one hash of n blocks (R74, R161). -/
def hashProgram (n : Nat) : List Instr :=
  [.init, .pcpy, .pmrk, .pzer, .plen] ++ (List.replicate n blockProgram).flatten ++ [.ser, .hex, .fin]

/-! ## The host's procedure (R73, R190) -/

/-- WR of a register (R73). -/
def wr (off : Nat) (v : Word) : Turn := .host (.write off .word v)

/-- RD of a register (R73). -/
def rd (off : Nat) : Turn := .host (.read off .word)

/-- HASHMSG m up to START (R190 steps 2, 3, 5): CLEAR, the PUSHes in order, START. -/
def hashMsgTurns (m : List Byte) : List Turn :=
  wr ctrlOff 0x2 :: m.map (fun b => wr msgPushOff (b.setWidth 32)) ++ [wr ctrlOff 0x1]

end Sys2Proof.Machine
end

