-- ==== Sys2Proof/Safety.lean ====
section
/-! DEFINITION. What a safe run is: the invariant that every step keeps (R166, R236, R57, R155) and the words claims are stated
in. -/

namespace Sys2Proof.Machine

/-- The message MSG[0..LEN) (R29). -/
def State.message (s : State) : List Byte := (List.range s.len.toNat).map fun i => (s.msg.read i).getD 0

/-- The bytes of a sequence stand in a memory at rising addresses from `a`. -/
def Memory.holds (m : Memory) (a : Nat) (vs : List Byte) : Prop := ∀ i, i < vs.length → m.read (a + i) = vs[i]?

/-- Every listed address lies inside the space (R57). -/
def Memory.within (m : Memory) (cap : Nat) : Prop := ∀ x ∈ m, x.1 < cap

/-- H[0..4] hold these five words. -/
def State.hIs (s : State) (v : Words5) : Prop := s.h = #v[some v.a, some v.b, some v.c, some v.d, some v.e]

/-- A to E hold these five words. -/
def State.workIs (s : State) (v : Words5) : Prop :=
  s.a = some v.a ∧ s.b = some v.b ∧ s.c = some v.c ∧ s.d = some v.d ∧ s.e = some v.e

/-- W[0..n) hold the first n schedule words of a block. -/
def State.wIs (s : State) (n : Nat) (x : List Byte) : Prop := ∀ i, i < n → s.wAt i = some (scheduleWord x i)

/-- PL is n and PBUF[0..n) are the first n bytes of the padded message (R30, R50). -/
def State.paddedTo (s : State) (n : Nat) : Prop :=
  s.pl = some (BitVec.ofNat 62 n) ∧ s.pbuf.holds 0 ((pad s.message).take n)

/-- PBUF[0..PL) = pad(MSG[0..LEN)) and NBLK counts its blocks (R105, R113). -/
def State.paddedWhole (s : State) : Prop :=
  s.paddedTo (pad s.message).length ∧ s.nblk = some (BitVec.ofNat 56 (numBlocks s.message))

/-- Before a micro-operation of the block group: the message is padded, blk < NBLK (R166), and H is the chaining value after
blk blocks. -/
def State.inBlock (s : State) : Prop :=
  s.paddedWhole ∧ s.pc.blk.toNat < numBlocks s.message ∧ s.hIs (chain s.message s.pc.blk.toNat)

/-- The block the sequencer is working on. -/
def State.block (s : State) : List Byte := blockOf (pad s.message) s.pc.blk.toNat

/-- After the last block: blk = NBLK (R166) and H is the final chaining value. -/
def State.afterBlocks (s : State) : Prop :=
  s.pc.blk.toNat = numBlocks s.message ∧ s.pc.j = 0 ∧ s.hIs (chain s.message (numBlocks s.message))

/-- What holds at each value of pc.op: the reachable pc values of R166 and, for each, the values that have been written by
then (R236). -/
def State.atOp (s : State) : Prop :=
  match s.pc.op.toNat with
  | 0x0 => s.pc = PC.idle
  | 0x1 => s.pc = ⟨Op.init, 0, 0⟩
  | 0x2 => s.pc = ⟨Op.pcpy, 0, 0⟩ ∧ s.hIs iv
  | 0x3 => s.pc = ⟨Op.pmrk, 0, 0⟩ ∧ s.hIs iv ∧ s.paddedTo s.message.length
  | 0x4 => s.pc = ⟨Op.pzer, 0, 0⟩ ∧ s.hIs iv ∧ s.paddedTo (s.message.length + 1)
  | 0x5 => s.pc = ⟨Op.plen, 0, 0⟩ ∧ s.hIs iv ∧ s.paddedTo (s.message.length + 1 + zcount s.message.length)
  | 0x6 => s.inBlock ∧ s.pc.j.toNat ≤ 15 ∧ s.wIs s.pc.j.toNat s.block
  | 0x7 => s.inBlock ∧ 16 ≤ s.pc.j.toNat ∧ s.pc.j.toNat ≤ 79 ∧ s.wIs s.pc.j.toNat s.block
  | 0x8 => s.inBlock ∧ s.pc.j = 0 ∧ s.wIs 80 s.block
  | 0x9 => s.inBlock ∧ s.pc.j.toNat ≤ 79 ∧ s.wIs 80 s.block ∧
      s.workIs (roundsUpTo (scheduleWord s.block) (chain s.message s.pc.blk.toNat) s.pc.j.toNat)
  | 0xA => s.inBlock ∧ s.pc.j = 0 ∧
      s.workIs (roundsUpTo (scheduleWord s.block) (chain s.message s.pc.blk.toNat) 80)
  | 0xB => s.afterBlocks
  | 0xC => s.afterBlocks ∧ s.digest.holds 0 (digestOf s.message)
  | 0xD => s.afterBlocks ∧ s.digest.holds 0 (digestOf s.message) ∧ s.hexstr.holds 0 (hashOf s.message)
  | _ => False

/-- The invariant of the machine. -/
structure State.Inv (s : State) : Prop where
  /-- The four memories are in canonical form. -/
  wf : s.msg.wf ∧ s.pbuf.wf ∧ s.digest.wf ∧ s.hexstr.wf
  /-- Nothing is stored outside a memory's bounds (R57). -/
  bounds : s.msg.within s.msgCap ∧ s.pbuf.within (pbufCap s.msgCap) ∧ s.digest.within 20 ∧ s.hexstr.within 40
  /-- LEN <= MSG_CAP and MSG[0..LEN) is valid (R21, R186). -/
  message : s.len.toNat ≤ s.msgCap ∧ ∀ i, i < s.len.toNat → (s.msg.read i).isSome
  /-- pc.op = IDLE exactly when BUSY = 0 (R14). -/
  rest : s.busy = false ↔ s.pc.op = Op.idle
  /-- While DONE = 1 the core rests and DIGEST and HEXSTR are the result for one message (R16, R155). -/
  result : s.done = true → s.busy = false ∧ ∃ m : List Byte, m.length ≤ s.msgCap ∧
    s.digest.holds 0 (digestOf m) ∧ s.hexstr.holds 0 (hashOf m)
  /-- The pc is one of the values of R166 and what it needs has been written (R236). -/
  phase : s.atOp

/-- A turn that is the host's reset. -/
def turnIsReset : Turn → Bool
  | .host .reset => true
  | _ => false

/-- A turn whose host access is one aligned 32-bit access (R26); a reset and the sequencer's turn are legal too. -/
def turnLegal : Turn → Bool
  | .core => true
  | .host .reset => true
  | .host (.read off size) => legalAccess off size
  | .host (.write off size _) => legalAccess off size

/-- An outcome is a next state. -/
def isNext (o : Host.Outcome State Fault Refusal) : Prop := ∃ t, o = .next t

end Sys2Proof.Machine
end

