-- ==== Sys2Proof/Certificates/Slice0/Obligations.lean ====
section
/-! DEFINITION. The statements for the provers, in the order of the spec's files: primitive functions, encodings, the pure
functions of a hash, each instruction's result and frame, the step of each agent, whole-machine rules, invariants, and runs. -/

open Sys2Proof Sys2Proof.Machine

/-! ## Words the statements share -/

/-- The meaning stops with a fault. -/
def Sys2Proof.Machine.stopsWithFault (i : Instr) (s : State) : Prop := ∃ f, exec i s = .fault f

/-- The state after a round (R132) with the value `t` of TEMP. -/
def Sys2Proof.Machine.afterRound (s : State) (j : BitVec 7) (t a b c d : Word) : State :=
  { s with
    temp := some t, a := some t, b := some a, c := some (b.rotateLeft 30), d := some c, e := some d
    pc := if j.toNat < 79 then ⟨0x9, s.pc.blk, j + 1⟩ else ⟨0xA, s.pc.blk, 0⟩ }

/-- The next-state table of R162, row by row, on the op codes of R70; `n` is NBLK. IDLE has no step. -/
def Sys2Proof.Machine.pcAfter (n : Nat) (p : PC) : PC :=
  match p.op.toNat with
  | 0x1 => ⟨0x2, 0, 0⟩
  | 0x2 => ⟨0x3, 0, 0⟩
  | 0x3 => ⟨0x4, 0, 0⟩
  | 0x4 => ⟨0x5, 0, 0⟩
  | 0x5 => ⟨0x6, 0, 0⟩
  | 0x6 => if p.j.toNat < 15 then ⟨0x6, p.blk, p.j + 1⟩ else ⟨0x7, p.blk, 16⟩
  | 0x7 => if p.j.toNat < 79 then ⟨0x7, p.blk, p.j + 1⟩ else ⟨0x8, p.blk, 0⟩
  | 0x8 => ⟨0x9, p.blk, 0⟩
  | 0x9 => if p.j.toNat < 79 then ⟨0x9, p.blk, p.j + 1⟩ else ⟨0xA, p.blk, 0⟩
  | 0xA => if p.blk.toNat + 1 < n then ⟨0x6, p.blk + 1, 0⟩ else ⟨0xB, p.blk + 1, 0⟩
  | 0xB => ⟨0xC, p.blk, 0⟩
  | 0xC => ⟨0xD, p.blk, 0⟩
  | _ => ⟨0x0, 0, 0⟩

/-! ## Primitive functions (40_primitives.md) -/

/-- R80: addition modulo 2^32 and its laws. -/
def Obligations.AdditionIsModulo2Pow32 : Prop :=
  ∀ x y z : Word, (add32 x y).toNat = (x.toNat + y.toNat) % 2 ^ 32 ∧ add32 x y = add32 y x ∧
    add32 (add32 x y) z = add32 x (add32 y z) ∧ add32 x 0 = x ∧
    add32 x (BitVec.ofNat 32 (2 ^ 32 - x.toNat)) = 0

/-- R85: the rotate's formula, and bit i of n becomes bit (i + r) mod 32. -/
def Obligations.RotateMovesEveryBitUp : Prop :=
  ∀ (n : Word) (r : RotAmt),
    (rotl n r).toNat = (n.toNat * 2 ^ r.val) % 2 ^ 32 + n.toNat / 2 ^ (32 - r.val) ∧
    ∀ i, i < 32 → (rotl n r).getLsbD ((i + r.val) % 32) = n.getLsbD i

/-- R86 (T6): ROTL(ROTL(n, r), 32 - r) = n on the whole domain; the type admits no other amount. -/
def Obligations.RotateRoundTrip : Prop :=
  ∀ (n : Word) (r q : RotAmt), (0 < r.val ∧ r.val < 32) ∧ (q.val = 32 - r.val → rotl (rotl n r) q = n)

/-- R87, R88, R89: the round functions bit by bit. -/
def Obligations.RoundFunctionsBitByBit : Prop :=
  ∀ (b c d : Word) (i : Nat), i < 32 →
    (ch b c d).getLsbD i = (if b.getLsbD i then c.getLsbD i else d.getLsbD i) ∧
    ((par b c d).getLsbD i = true ↔
      ((b.getLsbD i).toNat + (c.getLsbD i).toNat + (d.getLsbD i).toNat) % 2 = 1) ∧
    ((maj b c d).getLsbD i = true ↔
      2 ≤ (b.getLsbD i).toNat + (c.getLsbD i).toNat + (d.getLsbD i).toNat)

/-- R94 to R97: big-endian packing, its value (the first byte the most significant), and that packing and unpacking undo each
other. -/
def Obligations.BigEndianPackAndUnpack : Prop :=
  (∀ s0 s1 s2 s3 : Byte,
    (be32 s0 s1 s2 s3).toNat = s0.toNat * 2 ^ 24 + s1.toNat * 2 ^ 16 + s2.toNat * 2 ^ 8 + s3.toNat ∧
    unbe32 (be32 s0 s1 s2 s3) = [s0, s1, s2, s3]) ∧
  (∀ v : Word, ∃ s0 s1 s2 s3, unbe32 v = [s0, s1, s2, s3] ∧ be32 s0 s1 s2 s3 = v) ∧
  (∀ s0 s1 s2 s3 s4 s5 s6 s7 : Byte,
    (be64 s0 s1 s2 s3 s4 s5 s6 s7).toNat =
      (be32 s0 s1 s2 s3).toNat * 2 ^ 32 + (be32 s4 s5 s6 s7).toNat ∧
    unbe64 (be64 s0 s1 s2 s3 s4 s5 s6 s7) = [s0, s1, s2, s3, s4, s5, s6, s7]) ∧
  (∀ v : BitVec 64, ∃ s0 s1 s2 s3 s4 s5 s6 s7, unbe64 v = [s0, s1, s2, s3, s4, s5, s6, s7] ∧
    be64 s0 s1 s2 s3 s4 s5 s6 s7 = v)

/-- R91, R92: the length in bits, and the zero count as the least Z with (L + 1 + Z) mod 64 = 56. -/
def Obligations.LengthFieldAndZeroCount : Prop :=
  ∀ l : Nat, (len8 l).toNat = l * 8 % 2 ^ 64 ∧ (l < 2 ^ 61 → (len8 l).toNat = l * 8) ∧
    (l + 1 + zcount l) % 64 = 56 ∧ (∀ z, (l + 1 + z) % 64 = 56 → zcount l ≤ z) ∧
    (l % 64 ≤ 55 → zcount l = 55 - l % 64) ∧ (56 ≤ l % 64 → zcount l = 119 - l % 64)

/-! ## Encodings (30_encoding.md) -/

/-- R70, R71, R72: a word decodes to an instruction exactly when it matches a row of the opcode map and the instruction is that
row's; every other word is refused. -/
def Obligations.DecoderIsTheOpcodeMap : Prop :=
  ∀ (w : BitVec 11) (i : Instr),
    decodeUop w = .ok i ↔ ∃ r ∈ uopRows, r.matches w = true ∧ i = r.make (uopIdx w)

/-- Every well-formed instruction decodes from its encoding to itself, with every operand. -/
def Obligations.DecodeAfterEncode : Prop :=
  ∀ i : Instr, i.wf = true → decode (encode i) = .ok i

/-- Every micro-operation word has one meaning, and encoding that meaning gives the word back. -/
def Obligations.EncodeAfterDecode : Prop :=
  ∀ (w : BitVec 11) (i : Instr), decodeUop w = .ok i → i.wf = true ∧ encode i = .uop w

/-- Words written out from R70, bit by bit, decode to what they stand for. -/
def Obligations.SampleWordsDecode : Prop :=
  decodeUop 0b00010000000 = .ok .init ∧ decodeUop 0b01010000000 = .ok .plen ∧
  decodeUop 0b01100000101 = .ok (.ldw 5) ∧ decodeUop 0b01110010000 = .ok (.exp 16) ∧
  decodeUop 0b10010010100 = .ok (.rndPar1 20) ∧ decodeUop 0b10011001111 = .ok (.rndPar2 79) ∧
  decodeUop 0b11010000000 = .ok .fin ∧
  decodeWrite 0x10 0x162 = .ok (.push 0x62) ∧ decodeWrite 0x00 0xFFFFFFFD = .ok (.start false)

/-- R66, R19, R22: what a host write carries; bits 31:2 of CTRL and 31:8 of MSG_PUSH do not matter, and no other offset carries
a command. -/
def Obligations.HostWriteCommands : Prop :=
  ∀ (off : Nat) (v : Word),
    (v.getLsbD 0 = true → decodeWrite 0x00 v = .ok (.start (v.getLsbD 1))) ∧
    (v.getLsbD 0 = false → v.getLsbD 1 = true → decodeWrite 0x00 v = .ok .clear) ∧
    (v.getLsbD 0 = false → v.getLsbD 1 = false → ∀ i, decodeWrite 0x00 v ≠ .ok i) ∧
    decodeWrite 0x10 v = .ok (.push (v.setWidth 8)) ∧
    (off ≠ 0x00 → off ≠ 0x10 → ∀ i, decodeWrite off v ≠ .ok i)

/-! ## The pure functions of a hash -/

/-- The length of the padded message (the formulas of R113, T1). -/
def Obligations.PaddedLength : Prop :=
  ∀ m : List Byte, (pad m).length = 64 * ((m.length + 8) / 64 + 1) ∧ (pad m).length % 64 = 0 ∧
    m.length + 9 ≤ (pad m).length ∧ (pad m).length ≤ m.length + 72 ∧
    numBlocks m = (m.length + 8) / 64 + 1

/-- The clauses of the padding contract (R105 (1) to (4), T2): the message, 0x80, zeros, and the length in bits big-endian. -/
def Obligations.PaddingContract : Prop :=
  ∀ m : List Byte,
    (∀ i, i < m.length → (pad m)[i]? = m[i]?) ∧
    (pad m)[m.length]? = some 0x80 ∧
    (∀ i, m.length < i → i + 8 < (pad m).length → (pad m)[i]? = some 0x00) ∧
    (∀ k, k < 8 → (pad m)[(pad m).length - 8 + k]? =
      some (BitVec.ofNat 8 (m.length * 8 % 2 ^ 64 / 256 ^ (7 - k))))

/-- The schedule of a block (R120, R121, R122): sixteen big-endian words, then the recurrence with taps 3, 8, 14, 16. -/
def Obligations.ScheduleRecurrence : Prop :=
  ∀ (x : List Byte) (j : Nat),
    (j < 16 → scheduleWord x j =
      x.getD (4 * j) 0 ++ x.getD (4 * j + 1) 0 ++ x.getD (4 * j + 2) 0 ++ x.getD (4 * j + 3) 0) ∧
    (16 ≤ j → scheduleWord x j = (scheduleWord x (j - 3) ^^^ scheduleWord x (j - 8) ^^^ scheduleWord x (j - 14) ^^^
      scheduleWord x (j - 16)).rotateLeft 1)

/-- R153: the result is exactly 40 characters, each one of 0-9 and a-f; characters 8i to 8i+7 are the hex digits of word i,
most significant first. -/
def Obligations.HashIsFortyLowercaseHexDigits : Prop :=
  ∀ m : List Byte, (hashOf m).length = 40 ∧
    (∀ x ∈ hashOf m, (0x30 ≤ x.toNat ∧ x.toNat ≤ 0x39) ∨ (0x61 ≤ x.toNat ∧ x.toNat ≤ 0x66)) ∧
    ∀ i k, i < 5 → k < 8 → (hashOf m)[8 * i + k]? =
      some (hexChar (((chain m (numBlocks m)).toList.getD i 0).extractLsb' (28 - 4 * k) 4))

/-! ## Instructions: result and frame -/

/-- R101. -/
def Obligations.InitLoadsTheConstants : Prop :=
  ∀ s : State, exec .init s = .next { s with
    h := #v[some 0x67452301, some 0xEFCDAB89, some 0x98BADCFE, some 0x10325476, some 0xC3D2E1F0]
    pc := ⟨0x2, 0, 0⟩ }

/-- R106. -/
def Obligations.PcpyCopiesTheMessage : Prop :=
  ∀ s : State, s.len.toNat ≤ s.msgCap → (∀ i, i < s.len.toNat → (s.msg.read i).isSome) →
    ∃ (m : Memory) (pl : BitVec 62), pl.toNat = s.len.toNat ∧
      exec .pcpy s = .next { s with pbuf := m, pl := some pl, pc := ⟨0x3, 0, 0⟩ } ∧
      ∀ a, m.read a = if a < s.len.toNat then s.msg.read a else s.pbuf.read a

/-- R107. -/
def Obligations.PmrkAppendsTheMarker : Prop :=
  ∀ (s : State) (pl : BitVec 62), s.pl = some pl → pl.toNat + 1 ≤ pbufCap s.msgCap →
    ∃ (m : Memory) (pl' : BitVec 62), pl'.toNat = pl.toNat + 1 ∧
      exec .pmrk s = .next { s with pbuf := m, pl := some pl', pc := ⟨0x4, 0, 0⟩ } ∧
      ∀ a, m.read a = if a = pl.toNat then some 0x80 else s.pbuf.read a

/-- R109, with Z of R108: Z is the number below 64 with (PL + Z) mod 64 = 56. -/
def Obligations.PzerAppendsTheZeros : Prop :=
  ∀ (s : State) (pl : BitVec 62) (z : Nat), s.pl = some pl → z < 64 → (pl.toNat + z) % 64 = 56 →
    pl.toNat + z ≤ pbufCap s.msgCap →
    ∃ (m : Memory) (pl' : BitVec 62), pl'.toNat = pl.toNat + z ∧
      exec .pzer s = .next { s with pbuf := m, pl := some pl', pc := ⟨0x5, 0, 0⟩ } ∧
      ∀ a, m.read a = if pl.toNat ≤ a ∧ a < pl.toNat + z then some 0x00 else s.pbuf.read a

/-- R111, with the field's value of R110. -/
def Obligations.PlenAppendsTheLength : Prop :=
  ∀ (s : State) (pl : BitVec 62), s.pl = some pl → pl.toNat + 8 ≤ pbufCap s.msgCap →
    ∃ (m : Memory) (pl' : BitVec 62) (n : BitVec 56), pl'.toNat = pl.toNat + 8 ∧ n.toNat = (pl.toNat + 8) / 64 ∧
      exec .plen s = .next { s with pbuf := m, pl := some pl', nblk := some n, pc := ⟨0x6, 0, 0⟩ } ∧
      ∀ a, m.read a = if pl.toNat ≤ a ∧ a < pl.toNat + 8 then
          some (BitVec.ofNat 8 (s.len.toNat * 8 % 2 ^ 64 / 256 ^ (7 - (a - pl.toNat))))
        else s.pbuf.read a

/-- R121. -/
def Obligations.LdwLoadsABlockWord : Prop :=
  ∀ (s : State) (j : BitVec 7) (s0 s1 s2 s3 : Byte), j.toNat ≤ 15 →
    64 * s.pc.blk.toNat + 4 * j.toNat + 4 ≤ pbufCap s.msgCap →
    s.pbuf.read (64 * s.pc.blk.toNat + 4 * j.toNat) = some s0 →
    s.pbuf.read (64 * s.pc.blk.toNat + 4 * j.toNat + 1) = some s1 →
    s.pbuf.read (64 * s.pc.blk.toNat + 4 * j.toNat + 2) = some s2 →
    s.pbuf.read (64 * s.pc.blk.toNat + 4 * j.toNat + 3) = some s3 →
    ∃ w : Vector (Option Word) 80,
      exec (.ldw j) s = .next { s with
        w := w, pc := if j.toNat < 15 then ⟨0x6, s.pc.blk, j + 1⟩ else ⟨0x7, s.pc.blk, 16⟩ } ∧
      ∀ i : Fin 80, w[i] = if i.val = j.toNat then some (s0 ++ s1 ++ s2 ++ s3) else s.w[i]

/-- R123, with the recurrence of R122. -/
def Obligations.ExpDerivesAScheduleWord : Prop :=
  ∀ (s : State) (j : BitVec 7) (w3 w8 w14 w16 : Word), 16 ≤ j.toNat → j.toNat ≤ 79 →
    s.w[j.toNat - 3]? = some (some w3) → s.w[j.toNat - 8]? = some (some w8) →
    s.w[j.toNat - 14]? = some (some w14) → s.w[j.toNat - 16]? = some (some w16) →
    ∃ w : Vector (Option Word) 80,
      exec (.exp j) s = .next { s with
        w := w, pc := if j.toNat < 79 then ⟨0x7, s.pc.blk, j + 1⟩ else ⟨0x8, s.pc.blk, 0⟩ } ∧
      ∀ i : Fin 80, w[i] = if i.val = j.toNat then some ((w3 ^^^ w8 ^^^ w14 ^^^ w16).rotateLeft 1) else s.w[i]

/-- R131. -/
def Obligations.SeedCopiesTheChainingState : Prop :=
  ∀ (s : State) (h0 h1 h2 h3 h4 : Word), s.h = #v[some h0, some h1, some h2, some h3, some h4] →
    exec .seed s = .next { s with
      a := some h0, b := some h1, c := some h2, d := some h3, e := some h4, pc := ⟨0x9, s.pc.blk, 0⟩ }

/-- R132, R134 to R137, with the functions and constants of R68: the four RND micro-operations. -/
def Obligations.RoundMicroOperations : Prop :=
  ∀ (s : State) (j : BitVec 7) (a b c d e w : Word), s.a = some a → s.b = some b → s.c = some c → s.d = some d →
    s.e = some e → s.w[j.toNat]? = some (some w) →
    (j.toNat ≤ 19 → exec (.rndCh j) s = .next (afterRound s j
      (a.rotateLeft 5 + ((b &&& c) ||| (~~~b &&& d)) + e + 0x5A827999 + w) a b c d)) ∧
    (20 ≤ j.toNat → j.toNat ≤ 39 → exec (.rndPar1 j) s = .next (afterRound s j
      (a.rotateLeft 5 + (b ^^^ c ^^^ d) + e + 0x6ED9EBA1 + w) a b c d)) ∧
    (40 ≤ j.toNat → j.toNat ≤ 59 → exec (.rndMaj j) s = .next (afterRound s j
      (a.rotateLeft 5 + ((b &&& c) ||| (b &&& d) ||| (c &&& d)) + e + 0x8F1BBCDC + w) a b c d)) ∧
    (60 ≤ j.toNat → j.toNat ≤ 79 → exec (.rndPar2 j) s = .next (afterRound s j
      (a.rotateLeft 5 + (b ^^^ c ^^^ d) + e + 0xCA62C1D6 + w) a b c d))

/-- R138. A to E keep their values (R138), which no rule reads before the next SEED. -/
def Obligations.FoldAddsIntoTheChainingState : Prop :=
  ∀ (s : State) (h0 h1 h2 h3 h4 a b c d e : Word) (n : BitVec 56),
    s.h = #v[some h0, some h1, some h2, some h3, some h4] → s.a = some a → s.b = some b → s.c = some c →
    s.d = some d → s.e = some e → s.nblk = some n →
    let t : PC → State := fun p => { s with
      h := #v[some (h0 + a), some (h1 + b), some (h2 + c), some (h3 + d), some (h4 + e)]
      w := Vector.replicate 80 none, pc := p }
    (s.pc.blk.toNat + 1 < n.toNat → exec .fold s = .next (t ⟨0x6, s.pc.blk + 1, 0⟩)) ∧
    (s.pc.blk.toNat + 1 = n.toNat → exec .fold s = .next (t ⟨0xB, s.pc.blk + 1, 0⟩))

/-- The MODEL'S reading of a FOLD with blk + 1 above NBLK, which no run reaches and R162 has no row for: the only test is
blk + 1 < NBLK (R164), so it goes on to SER (DEDUCED, log entry 6). -/
def Obligations.FoldPastTheLastBlock : Prop :=
  ∀ (s : State) (h v : Words5) (n : BitVec 56), s.hIs h → s.workIs v → s.nblk = some n →
    n.toNat < s.pc.blk.toNat + 1 → ∃ t, exec .fold s = .next t ∧ t.pc = ⟨0xB, s.pc.blk + 1, 0⟩

/-- R150. -/
def Obligations.SerSerializesTheChainingState : Prop :=
  ∀ (s : State) (h0 h1 h2 h3 h4 : Word), s.h = #v[some h0, some h1, some h2, some h3, some h4] →
    ∃ m : Memory, exec .ser s = .next { s with digest := m, pc := ⟨0xC, s.pc.blk, 0⟩ } ∧
      ∀ a, m.read a = if a < 20 then
          some (BitVec.ofNat 8 (([h0, h1, h2, h3, h4].getD (a / 4) 0).toNat / 256 ^ (3 - a % 4)))
        else s.digest.read a

/-- R152, with the codes of R98. -/
def Obligations.HexRendersTheDigest : Prop :=
  ∀ (s : State) (x : Nat → Byte), (∀ n, n < 20 → s.digest.read n = some (x n)) →
    ∃ m : Memory, exec .hex s = .next { s with hexstr := m, pc := ⟨0xD, s.pc.blk, 0⟩ } ∧
      ∀ a, m.read a = if a < 40 then
          let n := if a % 2 = 0 then (x (a / 2)).toNat / 16 else (x (a / 2)).toNat % 16
          some (BitVec.ofNat 8 (if n ≤ 9 then 0x30 + n else 0x57 + n))
        else s.hexstr.read a

/-- R154. -/
def Obligations.FinEndsTheHash : Prop :=
  ∀ s : State, exec .fin s = .next { s with done := true, busy := false, pc := ⟨0x0, 0, 0⟩ }

/-- R184, R185: START, and CLEAR then START in one step; while BUSY = 1 either is ignored. -/
def Obligations.StartBeginsAHash : Prop :=
  ∀ s : State,
    (s.busy = false → exec (.start false) s = .next { s with
      busy := true, done := false, w := Vector.replicate 80 none, pc := ⟨0x1, 0, 0⟩ }) ∧
    (s.busy = false → exec (.start true) s = .next { s with
      len := 0, busy := true, done := false, w := Vector.replicate 80 none, pc := ⟨0x1, 0, 0⟩ }) ∧
    (s.busy = true → ∀ clearFirst, exec (.start clearFirst) s = .next s)

/-- R183. -/
def Obligations.ClearDiscardsTheMessage : Prop :=
  ∀ s : State, (s.busy = false → exec .clear s = .next { s with len := 0 }) ∧ (s.busy = true → exec .clear s = .next s)

/-- R186. -/
def Obligations.PushAppendsAByte : Prop :=
  ∀ (s : State) (b : Byte),
    (s.busy = false → s.len.toNat < s.msgCap → ∃ (m : Memory) (n : BitVec 61), n.toNat = s.len.toNat + 1 ∧
      exec (.push b) s = .next { s with msg := m, len := n } ∧
      ∀ a, m.read a = if a = s.len.toNat then some b else s.msg.read a) ∧
    (s.busy = true ∨ (s.msgCap : Nat) ≤ s.len.toNat → exec (.push b) s = .next s)

/-- R187: while BUSY = 1 a write to any offset with any value has no effect; the turn alone is used up. -/
def Obligations.WritesIgnoredWhileBusy : Prop :=
  ∀ (s : State) (off : Nat) (v : Word) (ts : List Turn), s.busy = true → off % 4 = 0 →
    s.turns = .host (.write off .word v) :: ts → step s = .next { s with turns := ts }

/-- R8 (U3): a micro-operation that reads a register, a schedule entry or a byte that holds no value stops with a fault. -/
def Obligations.InvalidOperandsStop : Prop :=
  ∀ s : State,
    ((∃ i : Fin 5, s.h[i] = none) →
      stopsWithFault .seed s ∧ stopsWithFault .fold s ∧ stopsWithFault .ser s) ∧
    ((s.a = none ∨ s.b = none ∨ s.c = none ∨ s.d = none ∨ s.e = none) → stopsWithFault .fold s ∧
      ∀ i j, i.wf = true → (i = .rndCh j ∨ i = .rndPar1 j ∨ i = .rndMaj j ∨ i = .rndPar2 j) → stopsWithFault i s) ∧
    (∀ i j, i.wf = true → (i = .rndCh j ∨ i = .rndPar1 j ∨ i = .rndMaj j ∨ i = .rndPar2 j) →
      s.w[j.toNat]? = some none → stopsWithFault i s) ∧
    (∀ j k, Instr.wf (.exp j) = true → (k = 3 ∨ k = 8 ∨ k = 14 ∨ k = 16) → s.w[j.toNat - k]? = some none →
      stopsWithFault (.exp j) s) ∧
    (s.pl = none → stopsWithFault .pmrk s ∧ stopsWithFault .pzer s ∧ stopsWithFault .plen s) ∧
    (s.nblk = none → stopsWithFault .fold s) ∧
    (∀ i, i < s.len.toNat → s.msg.read i = none → stopsWithFault .pcpy s) ∧
    (∀ j k, Instr.wf (.ldw j) = true → k < 4 → s.pbuf.read (64 * s.pc.blk.toNat + 4 * j.toNat + k) = none →
      stopsWithFault (.ldw j) s) ∧
    (∀ n, n < 20 → s.digest.read n = none → stopsWithFault .hex s)

/-- R72 (U6): the meanings refuse exactly the instructions that have no encoding. -/
def Obligations.OnlyIllFormedRefused : Prop :=
  ∀ (i : Instr) (s : State), (∃ r, exec i s = .refused r) ↔ i.wf = false

/-! ## One step of each agent -/

/-- A step of the sequencer is the meaning of the micro-operation its pc encodes (R14, R60); a word that names none is refused
(R71). -/
def Obligations.StepRunsTheDecodedMicroOperation : Prop :=
  ∀ (s : State) (ts : List Turn), s.busy = true →
    (∀ i, decodeUop (s.pc.op ++ s.pc.j) = .ok i →
      (s.turns = [] → step s = exec i s) ∧ (s.turns = .core :: ts → step s = exec i { s with turns := ts })) ∧
    (∀ f, decodeUop (s.pc.op ++ s.pc.j) = .error f →
      s.turns = [] ∨ s.turns = .core :: ts → step s = .refused .noMicroOp)

/-- A host write that carries a command is the meaning of that command; one that carries none does nothing (R182). -/
def Obligations.StepRunsTheHostCommand : Prop :=
  ∀ (s : State) (off : Nat) (v : Word) (ts : List Turn), off % 4 = 0 →
    s.turns = .host (.write off .word v) :: ts →
    (∀ i, decodeWrite off v = .ok i → step s = exec i { s with turns := ts }) ∧
    (∀ f, decodeWrite off v = .error f → step s = .next { s with turns := ts })

/-- While BUSY = 0 the sequencer has no step (U18): with nothing left to do the machine is stuck; that a turn of the resting
sequencer passes is the MODEL'S choice (log entry 5). -/
def Obligations.RestingSequencerHasNoStep : Prop :=
  ∀ (s : State) (ts : List Turn), s.busy = false →
    (s.turns = [] → step s = .fault .stuck) ∧ (s.turns = .core :: ts → step s = .next { s with turns := ts })

/-- R220, R222: reset from any state, BUSY or not. What the host has read and is about to send is not the core's. -/
def Obligations.ResetFromAnyState : Prop :=
  ∀ (s : State) (ts : List Turn), s.turns = .host .reset :: ts → step s = .next {
    msgCap := s.msgCap, pc := ⟨0x0, 0, 0⟩, busy := false, done := false, len := 0, pl := none, nblk := none
    h := #v[none, none, none, none, none], a := none, b := none, c := none, d := none, e := none, temp := none
    w := Vector.replicate 80 none, msg := [], pbuf := [], digest := [], hexstr := []
    turns := ts, rdata := s.rdata, freeIdx := s.freeIdx }

/-- R36: the reset state, for every capacity, field by field, FULL among them. -/
def Obligations.ResetStateValues : Prop :=
  ∀ cap : Fin (2 ^ 61),
    let s := State.resetWith cap
    s.msgCap = cap ∧ s.pc = ⟨0x0, 0, 0⟩ ∧ s.busy = false ∧ s.done = false ∧ s.len = 0 ∧
    (s.full = true ↔ cap.val = 0) ∧ (∀ i : Fin 5, s.h[i] = none) ∧
    s.a = none ∧ s.b = none ∧ s.c = none ∧ s.d = none ∧ s.e = none ∧ s.temp = none ∧
    (∀ i : Fin 80, s.w[i] = none) ∧ s.pl = none ∧ s.nblk = none ∧
    (∀ a, s.msg.read a = none) ∧ (∀ a, s.pbuf.read a = none) ∧
    (∀ a, s.digest.read a = none) ∧ (∀ a, s.hexstr.read a = none)

/-- R20, R21: reads of STATUS, LEN_LO and LEN_HI, in every state, change nothing of the core. -/
def Obligations.StatusAndLengthReads : Prop :=
  ∀ (s : State) (off : Nat) (ts : List Turn), s.turns = .host (.read off .word) :: ts →
    (off = 0x04 → ∃ v : Word, step s = .next { s with turns := ts, rdata := some v } ∧
      v.getLsbD 0 = s.busy ∧ v.getLsbD 1 = s.done ∧ (v.getLsbD 2 = true ↔ s.len.toNat = s.msgCap) ∧
      ∀ i, 3 ≤ i → v.getLsbD i = false) ∧
    (off = 0x08 → step s = .next { s with turns := ts, rdata := some (BitVec.ofNat 32 (s.len.toNat % 2 ^ 32)) }) ∧
    (off = 0x0C → step s = .next { s with turns := ts, rdata := some (BitVec.ofNat 32 (s.len.toNat / 2 ^ 32)) })

/-- R23, R24: while DONE = 1 a DIGEST or HEX register shows four bytes of its memory, the lowest address in bits 31:24, and
the read changes nothing of the core. -/
def Obligations.ResultReadsWhenDone : Prop :=
  ∀ (s : State) (k : Nat) (ts : List Turn) (s0 s1 s2 s3 : Byte), s.done = true →
    (k < 5 → s.turns = .host (.read (0x20 + 4 * k) .word) :: ts →
      s.digest.read (4 * k) = some s0 → s.digest.read (4 * k + 1) = some s1 →
      s.digest.read (4 * k + 2) = some s2 → s.digest.read (4 * k + 3) = some s3 →
      step s = .next { s with turns := ts, rdata := some (s0 ++ s1 ++ s2 ++ s3) }) ∧
    (k < 10 → s.turns = .host (.read (0x40 + 4 * k) .word) :: ts →
      s.hexstr.read (4 * k) = some s0 → s.hexstr.read (4 * k + 1) = some s1 →
      s.hexstr.read (4 * k + 2) = some s2 → s.hexstr.read (4 * k + 3) = some s3 →
      step s = .next { s with turns := ts, rdata := some (s0 ++ s1 ++ s2 ++ s3) })

/-- R23, R24, R151: while DONE = 1 and DIGEST and HEXSTR hold the result for a message m, DIGEST0 to DIGEST4 read the final
chaining words and HEX0 to HEX9 read the forty characters, four a register, the first in bits 31:24. -/
def Obligations.ResultRegistersSpellTheHash : Prop :=
  ∀ (s : State) (m : List Byte) (k : Nat) (ts : List Turn), s.done = true →
    (k < 5 → s.digest.holds 0 (digestOf m) → s.turns = .host (.read (0x20 + 4 * k) .word) :: ts →
      step s = .next { s with turns := ts, rdata := some ((chain m (numBlocks m)).toList.getD k 0) }) ∧
    (k < 10 → s.hexstr.holds 0 (hashOf m) → s.turns = .host (.read (0x40 + 4 * k) .word) :: ts →
      ∃ v : Word, step s = .next { s with turns := ts, rdata := some v } ∧
        ∀ i, i < 4 → (hashOf m)[4 * k + i]? = some (v.extractLsb' (24 - 8 * i) 8))

/-- R230 (U1): while DONE = 0 such a read is legal, answers a free value and changes nothing of the core, whatever the memories
hold; which value it is, nothing says. -/
def Obligations.ResultReadsBeforeDone : Prop :=
  ∀ (s : State) (k : Nat) (ts : List Turn), s.done = false →
    (k < 5 ∧ s.turns = .host (.read (0x20 + 4 * k) .word) :: ts) ∨
      (k < 10 ∧ s.turns = .host (.read (0x40 + 4 * k) .word) :: ts) →
    step s = .next { s with turns := ts, rdata := some (Config.freeWord s.freeIdx), freeIdx := s.freeIdx + 1 }

/-- CTRL and MSG_PUSH read 0 (R19, R22, R181), reserved offsets read 0 (R25), and a write to any aligned offset but those two is
ignored (R182, R25). That EVERY aligned offset from 0x68 on is a reserved offset is the MODEL'S choice (log entry 12, DESIGN
CHOICE): R25 says so only within whatever range the platform decodes to the core, and R51 leaves that range open. -/
def Obligations.ReservedOffsets : Prop :=
  ∀ (s : State) (off : Nat) (v : Word) (ts : List Turn), off % 4 = 0 →
    (s.turns = .host (.read off .word) :: ts →
      off = 0x00 ∨ (0x10 ≤ off ∧ off ≤ 0x1C) ∨ (0x34 ≤ off ∧ off ≤ 0x3C) ∨ 0x68 ≤ off →
      step s = .next { s with turns := ts, rdata := some 0 }) ∧
    (s.turns = .host (.write off .word v) :: ts → off ≠ 0x00 → off ≠ 0x10 → step s = .next { s with turns := ts })

/-- R26 (U5): any access that is not one aligned 32-bit access is refused. -/
def Obligations.OddAccessesRefused : Prop :=
  ∀ (s : State) (off : Nat) (size : AccessSize) (v : Word) (ts : List Turn),
    s.turns = .host (.read off size) :: ts ∨ s.turns = .host (.write off size v) :: ts →
    size ≠ .word ∨ off % 4 ≠ 0 → step s = .refused .hostAccess

/-- Whatever the host does short of reset and of an access outside the spec, it changes nothing of a busy core: only the turns
left, the host's own read data and the count of free values move (R54, R187, R181). -/
def Obligations.HostCannotDisturbABusyCore : Prop :=
  ∀ (s : State) (a : HostAction) (ts : List Turn), s.busy = true → s.done = false → s.turns = .host a :: ts →
    turnLegal (.host a) = true → turnIsReset (.host a) = false →
    ∃ (rdata : Option Word) (n : Nat), step s = .next { s with turns := ts, rdata := rdata, freeIdx := n }

/-! ## Whole-machine rules -/

/-- Which instructions write which state (R10 to R12, R15, R16, R21, R28 to R32, R34): whatever changes, its writer is one of
those the rule names. Nothing writes the parameter, the host's turns, its read data or the free values. -/
def Obligations.WritersOfEachRegister : Prop :=
  ∀ (i : Instr) (s t : State), exec i s = .next t →
    (t.h ≠ s.h → i = .init ∨ i = .fold) ∧
    (t.a ≠ s.a ∨ t.b ≠ s.b ∨ t.c ≠ s.c ∨ t.d ≠ s.d ∨ t.e ≠ s.e →
      i = .seed ∨ ∃ j, i = .rndCh j ∨ i = .rndPar1 j ∨ i = .rndMaj j ∨ i = .rndPar2 j) ∧
    (t.temp ≠ s.temp → ∃ j, i = .rndCh j ∨ i = .rndPar1 j ∨ i = .rndMaj j ∨ i = .rndPar2 j) ∧
    (t.w ≠ s.w → i = .fold ∨ (∃ c, i = .start c) ∨ ∃ j, i = .ldw j ∨ i = .exp j) ∧
    (t.pl ≠ s.pl → i = .pcpy ∨ i = .pmrk ∨ i = .pzer ∨ i = .plen) ∧
    (t.pbuf ≠ s.pbuf → i = .pcpy ∨ i = .pmrk ∨ i = .pzer ∨ i = .plen) ∧
    (t.nblk ≠ s.nblk → i = .plen) ∧
    (t.msg ≠ s.msg → ∃ b, i = .push b) ∧
    (t.len ≠ s.len → i = .clear ∨ i = .start true ∨ ∃ b, i = .push b) ∧
    (t.digest ≠ s.digest → i = .ser) ∧ (t.hexstr ≠ s.hexstr → i = .hex) ∧
    (t.busy ≠ s.busy ∨ t.done ≠ s.done → i = .fin ∨ ∃ c, i = .start c) ∧
    t.msgCap = s.msgCap ∧ t.turns = s.turns ∧ t.rdata = s.rdata ∧ t.freeIdx = s.freeIdx

/-- R162: each micro-operation the sequencer runs takes the pc to the next row of the table; at IDLE there is no step, and an
accepted START sets the pc to (INIT, 0, 0). -/
def Obligations.NextPcTable : Prop :=
  (∀ (s t : State) (ts : List Turn) (n : BitVec 56), s.busy = true → s.turns = [] ∨ s.turns = .core :: ts →
    s.nblk = some n ∨ s.pc.op ≠ 0xA → (s.pc.op = 0xA → s.pc.blk.toNat + 1 ≤ n.toNat) →
    step s = .next t → t.pc = pcAfter n.toNat s.pc) ∧
  (∀ (s : State) (i : Instr), s.pc = ⟨0x0, 0, 0⟩ → decodeUop (fetchWord s) ≠ .ok i) ∧
  (∀ (s t : State) (clearFirst : Bool), s.busy = false → exec (.start clearFirst) s = .next t → t.pc = ⟨0x1, 0, 0⟩)

/-! ## Invariants -/

/-- The invariant holds in the reset state, for every capacity. -/
def Obligations.InvariantAtReset : Prop := ∀ cap : Fin (2 ^ 61), (State.resetWith cap).Inv

/-- Every step keeps the invariant: canonical memories within bounds, a readable message, the pc values of R166, all that has
been computed so far equal to the pure functions of the message, and DONE only with a correct result. -/
def Obligations.StepKeepsTheInvariant : Prop := ∀ s t : State, s.Inv → step s = .next t → t.Inv

/-- From a state with the invariant no step faults or is refused, unless the host makes an access outside the spec or no agent
has anything to do (R236, R57, R167): no run reads an invalid value, leaves a memory's bounds or issues an illegal word. -/
def Obligations.InvariantStatesStepOn : Prop :=
  ∀ s : State, s.Inv →
    (∀ u ts, s.turns = u :: ts → turnLegal u = true → isNext (step s)) ∧ (s.turns = [] → s.busy = true → isNext (step s))

/-- R20: the legal values of STATUS are 0, 1, 2, 4, 5 and 6; BUSY and DONE are never both 1 (R16), and pc.op is IDLE exactly when
BUSY = 0 (R14). -/
def Obligations.LegalStatusValues : Prop :=
  ∀ s : State, s.Inv → (statusWord s).toNat ∈ [0, 1, 2, 4, 5, 6] ∧ (s.busy = true → s.done = false) ∧
    (s.pc.op = 0x0 ↔ s.busy = false)

/-! ## Runs -/

/-- R139: the 162 micro-operations of a block leave compress(h, x) in H, whatever blk is and whatever W and A to E held. -/
def Obligations.BlockRunIsCompress : Prop :=
  ∀ (s : State) (h : Words5) (x : List Byte) (n : BitVec 56), s.busy = true → s.turns = [] →
    s.pc.op = 0x6 → s.pc.j = 0 → s.hIs h → x.length = 64 → s.pbuf.holds (64 * s.pc.blk.toNat) x →
    64 * s.pc.blk.toNat + 64 ≤ pbufCap s.msgCap → s.nblk = some n →
    ∃ t : State, Sys2Proof.core.run 162 s = .next t ∧ t.hIs (compress h x)

/-- R160, R167: from the first micro-operation of a hash, after exactly 8 + 162 * NBLK steps of the sequencer, DONE = 1, and
DIGEST and HEXSTR hold the digest and the hash of the message. -/
def Obligations.HashRunIsHash : Prop :=
  ∀ (s : State) (m : List Byte), s.Inv → s.pc = ⟨0x1, 0, 0⟩ → s.turns = [] → s.message = m →
    ∃ t : State, Sys2Proof.core.run (8 + 162 * ((m.length + 8) / 64 + 1)) s = .next t ∧
      t.done = true ∧ t.busy = false ∧ t.pc = ⟨0x0, 0, 0⟩ ∧ t.msg = s.msg ∧ t.len = s.len ∧
      t.digest.holds 0 (digestOf m) ∧ t.hexstr.holds 0 (hashOf m)

/-- R161: the micro-operations of a hash are those of the program, in its order, one a step. -/
def Obligations.SequencerRunsTheProgram : Prop :=
  ∀ (s : State) (n : Nat), s.Inv → s.pc = ⟨0x1, 0, 0⟩ → s.turns = [] → n = numBlocks s.message →
    (hashProgram n).length = 8 + 162 * n ∧
    ∀ k (hk : k < (hashProgram n).length), ∃ t : State, Sys2Proof.core.run k s = .next t ∧ t.busy = true ∧
      decodeUop (fetchWord t) = .ok (hashProgram n)[k]

/-- R190, R191: HASHMSG m from any resting state that runs reach, after any earlier hashes, gives hash(m). -/
def Obligations.HashMsgGivesTheHash : Prop :=
  ∀ (s : State) (m : List Byte), s.Inv → s.busy = false → m.length ≤ s.msgCap → s.turns = hashMsgTurns m →
    ∃ t : State, Sys2Proof.core.run (m.length + 2 + (8 + 162 * numBlocks m)) s = .next t ∧
      t.done = true ∧ t.busy = false ∧ t.message = m ∧
      t.digest.holds 0 (digestOf m) ∧ t.hexstr.holds 0 (hashOf m)

/-- R54, R187: the result is a function of the message at START alone. However the host's steps, short of reset and of accesses
outside the spec, fall between the sequencer's, the last of the 8 + 162 * NBLK micro-operations leaves DONE = 1 and the hash of
that message. -/
def Obligations.HostInterleavingDoesNotMatter : Prop :=
  ∀ (s : State) (ts : List Turn), s.Inv → s.pc = ⟨0x1, 0, 0⟩ → s.turns = ts ++ [.core] →
    (∀ u ∈ ts, turnLegal u = true ∧ turnIsReset u = false) →
    ts.count .core + 1 = 8 + 162 * numBlocks s.message →
    ∃ t : State, Sys2Proof.core.run (ts.length + 1) s = .next t ∧ t.done = true ∧ t.message = s.message ∧
      t.digest.holds 0 (digestOf s.message) ∧ t.hexstr.holds 0 (hashOf s.message)
end

