-- ==== Sys2Proof/Laws/Decode.lean ====
section
/-! SUPPORT. The laws of the micro-operation word: its two fields are read back, and the RND stage as a range test. -/

namespace Sys2Proof

theorem uopWord_toNat (op : BitVec 4) (idx : BitVec 7) : (uopWord op idx).toNat = op.toNat * 128 + idx.toNat := by
  simp only [uopWord, BitVec.toNat_append]
  rw [← Nat.shiftLeft_add_eq_or_of_lt idx.isLt, Nat.shiftLeft_eq]

@[simp] theorem uopOp_uopWord (op : BitVec 4) (idx : BitVec 7) : uopOp (uopWord op idx) = op := by
  apply BitVec.eq_of_toNat_eq
  have := idx.isLt
  have := op.isLt
  simp only [uopOp, BitVec.extractLsb'_toNat, uopWord_toNat, Nat.shiftRight_eq_div_pow]
  omega

@[simp] theorem uopIdx_uopWord (op : BitVec 4) (idx : BitVec 7) : uopIdx (uopWord op idx) = idx := by
  apply BitVec.eq_of_toNat_eq
  have := idx.isLt
  simp only [uopIdx, BitVec.extractLsb'_toNat, uopWord_toNat, Nat.shiftRight_eq_div_pow]
  omega

theorem uopWord_inj {a b : BitVec 4} {x y : BitVec 7} (h : uopWord a x = uopWord b y) : a = b ∧ x = y :=
  ⟨by simpa using congrArg uopOp h, by simpa using congrArg uopIdx h⟩

/-- A word is its two fields. -/
theorem uopWord_fields (w : BitVec 11) : uopWord (uopOp w) (uopIdx w) = w := by
  apply BitVec.eq_of_toNat_eq
  have := w.isLt
  simp only [uopOp, uopIdx, uopWord_toNat, BitVec.extractLsb'_toNat, Nat.shiftRight_eq_div_pow]
  omega

/-- The stage j div 20 as ranges (R68). -/
theorem decodeRnd_eq (j : BitVec 7) : decodeRnd j =
    if j.toNat < 20 then .ok (.rndCh j) else if j.toNat < 40 then .ok (.rndPar1 j)
    else if j.toNat < 60 then .ok (.rndMaj j) else if j.toNat < 80 then .ok (.rndPar2 j)
    else .error .indexOutOfRange := by
  unfold decodeRnd
  split_ifs with h1 h2 h3 h4
  · rw [show j.toNat / 20 = 0 by omega]; rfl
  · rw [show j.toNat / 20 = 1 by omega]; rfl
  · rw [show j.toNat / 20 = 2 by omega]; rfl
  · rw [show j.toNat / 20 = 3 by omega]; rfl
  · split <;> first | omega | rfl

end Sys2Proof
end

