-- ==== Sys2Proof/Laws/Memory.lean ====
section
/-! SUPPORT. The laws of the byte memories: a read after a write, the canonical form kept by every operation, and for each load
and store the one lemma that says everything it can do. -/

namespace Sys2Proof.Machine

/-! ## One byte -/

/-- A read after a write gives the byte written at its address and the old byte everywhere else. -/
theorem read_write (m : Memory) (a : Nat) (v : Byte) (b : Nat) :
    (m.write a v).read b = if a = b then some v else m.read b := by
  induction m with
  | nil => simp [Memory.write, Memory.read]
  | cons x m ih =>
    obtain ⟨k, y⟩ := x
    simp only [Memory.write]
    rcases Nat.lt_trichotomy a k with h | rfl | h
    · rw [if_pos h]; simp only [Memory.read]
    · rw [if_neg (lt_irrefl _), if_pos rfl]; simp only [Memory.read]; split_ifs <;> rfl
    · rw [if_neg (by omega), if_neg (by omega)]
      simp only [Memory.read, ih]
      by_cases hk : k = b
      · rw [if_pos hk, if_neg (by omega), if_pos hk]
      · rw [if_neg hk, if_neg hk]

/-- Where the addresses of a written memory come from. -/
theorem mem_write {m : Memory} {a : Nat} {v : Byte} {x : Host.Cell} (h : x ∈ m.write a v) : x = (a, v) ∨ x ∈ m := by
  induction m with
  | nil => simpa [Memory.write] using h
  | cons y m ih =>
    obtain ⟨k, z⟩ := y
    simp only [Memory.write] at h
    split_ifs at h <;> simp at h ⊢ <;> tauto

/-- A write keeps the canonical form. -/
theorem write_wf {m : Memory} (hm : m.wf) (a : Nat) (v : Byte) : (m.write a v).wf := by
  induction m with
  | nil => simp [Memory.write]
  | cons y m ih =>
    obtain ⟨k, z⟩ := y
    obtain ⟨hk, hm⟩ := List.pairwise_cons.1 hm
    simp only [Memory.write]
    split_ifs with h1 h2
    · refine List.pairwise_cons.2 ⟨fun x hx => ?_, List.pairwise_cons.2 ⟨hk, hm⟩⟩
      obtain rfl | hx := List.mem_cons.1 hx
      · exact h1
      · exact h1.trans (hk x hx)
    · exact List.pairwise_cons.2 ⟨fun x hx => h2 ▸ hk x hx, hm⟩
    · refine List.pairwise_cons.2 ⟨fun x hx => ?_, ih hm⟩
      obtain rfl | hx := mem_write hx
      · simp; omega
      · exact hk x hx

/-- A write inside a space keeps every address inside it. -/
theorem write_within {m : Memory} {cap a : Nat} {v : Byte} (hm : m.within cap) (ha : a < cap) :
    (m.write a v).within cap := by
  intro x hx
  obtain rfl | hx := mem_write hx
  · exact ha
  · exact hm x hx

/-- Equal canonical memories: they read alike exactly when they are the same list. -/
theorem wf_ext {m n : Memory} (hm : m.wf) (hn : n.wf) (h : ∀ a, m.read a = n.read a) : m = n := by
  have none_of_lt : ∀ {l : Memory} {a : Nat}, (∀ x ∈ l, a < x.1) → l.read a = none := by
    intro l a hl
    induction l with
    | nil => rfl
    | cons x l ih =>
      obtain ⟨k, v⟩ := x
      have := hl (k, v) (by simp)
      simp only [Memory.read, if_neg (Nat.ne_of_gt this)]
      exact ih fun y hy => hl y (by simp [hy])
  induction m generalizing n with
  | nil =>
    cases n with
    | nil => rfl
    | cons y n => simpa [Memory.read] using h y.1
  | cons x m ih =>
    cases n with
    | nil => simpa [Memory.read] using h x.1
    | cons y n =>
      obtain ⟨k, v⟩ := x; obtain ⟨k', v'⟩ := y
      obtain ⟨h1, hm'⟩ := List.pairwise_cons.1 hm
      obtain ⟨h2, hn'⟩ := List.pairwise_cons.1 hn
      have hk : k = k' := by
        rcases lt_trichotomy k k' with hlt | rfl | hlt
        · have := h k
          rw [none_of_lt (l := (k', v') :: n)
            (fun y hy => by obtain rfl | hy := List.mem_cons.1 hy; exacts [hlt, hlt.trans (h2 y hy)])] at this
          simp [Memory.read] at this
        · rfl
        · have := h k'
          rw [none_of_lt (l := (k, v) :: m)
            (fun y hy => by obtain rfl | hy := List.mem_cons.1 hy; exacts [hlt, hlt.trans (h1 y hy)])] at this
          simp [Memory.read] at this
      subst hk
      have hv : v = v' := by simpa [Memory.read] using h k
      subst hv
      congr 1
      refine ih hm' hn' fun a => ?_
      rcases eq_or_ne k a with rfl | hne
      · rw [none_of_lt h1, none_of_lt h2]
      · simpa [Memory.read, hne] using h a

/-! ## A sequence of bytes -/

/-- A read after a sequence was written at `a`. -/
theorem read_writeList (vs : List Byte) (m : Memory) (a b : Nat) :
    (m.writeList a vs).read b = if a ≤ b ∧ b < a + vs.length then vs[b - a]? else m.read b := by
  induction vs generalizing m a with
  | nil => simp [Memory.writeList]
  | cons v vs ih =>
    simp only [Memory.writeList, ih, read_write, List.length_cons]
    rcases Nat.lt_trichotomy b a with h | rfl | h
    · rw [if_neg (by omega), if_neg (by omega), if_neg (by omega)]
    · rw [if_neg (by omega), if_pos rfl, if_pos (by omega)]; simp
    · obtain ⟨k, rfl⟩ : ∃ k, b = a + 1 + k := ⟨b - a - 1, by omega⟩
      have e1 : a + 1 + k - a = k + 1 := by omega
      have e2 : a + 1 + k - (a + 1) = k := by omega
      rw [e1, e2, List.getElem?_cons_succ, if_neg (show ¬a = a + 1 + k by omega)]
      by_cases hk : k < vs.length
      · rw [if_pos (by omega), if_pos (by omega)]
      · rw [if_neg (by omega), if_neg (by omega)]

theorem writeList_wf (vs : List Byte) {m : Memory} (hm : m.wf) (a : Nat) : (m.writeList a vs).wf := by
  induction vs generalizing m a with
  | nil => exact hm
  | cons v vs ih => exact ih (write_wf hm a v) (a + 1)

theorem writeList_within (vs : List Byte) {m : Memory} {cap a : Nat} (hm : m.within cap)
    (ha : vs = [] ∨ a + vs.length ≤ cap) : (m.writeList a vs).within cap := by
  induction vs generalizing m a with
  | nil => exact hm
  | cons v vs ih =>
    simp only [List.length_cons, reduceCtorEq, false_or] at ha
    exact ih (write_within hm (by omega)) (by right; omega)

/-- The bytes just written stand where they were written. -/
theorem holds_writeList (m : Memory) (a : Nat) (vs : List Byte) : (m.writeList a vs).holds a vs := by
  intro i hi
  rw [read_writeList, if_pos (by omega), Nat.add_sub_cancel_left]

/-- Appending after what a memory holds. -/
theorem holds_append_writeList {m : Memory} {a : Nat} {us : List Byte} (h : m.holds a us) (vs : List Byte) :
    (m.writeList (a + us.length) vs).holds a (us ++ vs) := by
  intro i hi
  rw [List.length_append] at hi
  rw [read_writeList]
  by_cases hiu : i < us.length
  · rw [if_neg (by omega), h i hiu, List.getElem?_append_left hiu]
  · rw [if_pos (by omega), List.getElem?_append_right (by omega)]
    congr 1; omega

/-! ## Loads and stores: everything each can do -/

theorem valueOf_ok {α : Type} {x : Loc} {o : Option α} {v : α} : valueOf x o = .ok v ↔ o = some v := by
  cases o <;> simp [valueOf]

theorem loadByte_ok {sp : Space} {cap : Nat} {m : Memory} {a : Nat} {v : Byte} :
    loadByte sp cap m a = .ok v ↔ a < cap ∧ m.read a = some v := by
  unfold loadByte
  split_ifs with h <;> simp [h, valueOf_ok]

/-- A load answers exactly the bytes that stand there, all inside the space. -/
theorem loadBytes_ok {sp : Space} {cap : Nat} {m : Memory} {n a : Nat} {vs : List Byte} :
    loadBytes sp cap m a n = .ok vs ↔ vs.length = n ∧ (n = 0 ∨ a + n ≤ cap) ∧ m.holds a vs := by
  induction n generalizing a vs with
  | zero =>
    simp only [loadBytes, Except.ok.injEq, true_or, true_and, List.length_eq_zero_iff]
    constructor
    · rintro rfl; exact ⟨rfl, fun i hi => by simp at hi⟩
    · exact fun h => h.1.symm
  | succ n ih =>
    simp only [loadBytes]
    cases h1 : loadByte sp cap m a with
    | error f =>
      simp only [reduceCtorEq, false_or, false_iff]
      rintro ⟨hl, hc, hh⟩
      obtain _ | ⟨v, vs⟩ := vs
      · simp at hl
      · have := (loadByte_ok (sp := sp)).2 ⟨(by omega : a < cap), by simpa using hh 0 (by simp)⟩
        simp [h1] at this
    | ok v =>
      obtain ⟨hac, hav⟩ := loadByte_ok.1 h1
      have key : ∀ us : List Byte, m.holds (a + 1) us ↔ m.holds a (v :: us) := by
        intro us
        constructor
        · intro h i hi
          cases i with
          | zero => simpa using hav
          | succ i =>
            have := h i (by simpa using hi)
            rw [List.getElem?_cons_succ, ← this]; congr 1; omega
        · intro h i hi
          have := h (i + 1) (by simpa using hi)
          rw [List.getElem?_cons_succ] at this; rw [← this]; congr 1; omega
      cases h2 : loadBytes sp cap m (a + 1) n with
      | error f =>
        simp only [reduceCtorEq, false_or, false_iff]
        rintro ⟨hl, hc, hh⟩
        obtain _ | ⟨u, us⟩ := vs
        · simp at hl
        · have hu : u = v := by have := hh 0 (by simp); simp_all
          subst hu
          have := (ih (a := a + 1) (vs := us)).2 ⟨by simpa using hl, by omega, (key us).2 hh⟩
          simp [h2] at this
      | ok us =>
        obtain ⟨hl, hc, hh⟩ := ih.1 h2
        simp only [Except.ok.injEq, reduceCtorEq, false_or]
        constructor
        · rintro rfl
          exact ⟨by simp [hl], by omega, (key us).1 hh⟩
        · rintro ⟨hl', -, hh'⟩
          refine List.ext_getElem? fun i => ?_
          by_cases hi : i < n + 1
          · rw [← (key us).1 hh i (by simp; omega), hh' i (by omega)]
          · rw [List.getElem?_eq_none (by simp; omega), List.getElem?_eq_none (by omega)]

theorem load32_ok {sp : Space} {cap : Nat} {m : Memory} {a : Nat} {v : Word} :
    load32 sp cap m a = .ok v ↔ a + 4 ≤ cap ∧ ∃ s0 s1 s2 s3, m.read a = some s0 ∧ m.read (a + 1) = some s1 ∧
      m.read (a + 2) = some s2 ∧ m.read (a + 3) = some s3 ∧ v = be32 s0 s1 s2 s3 := by
  unfold load32
  cases h : loadBytes sp cap m a 4 with
  | error f =>
    simp only [reduceCtorEq, false_iff]
    rintro ⟨hc, s0, s1, s2, s3, h0, h1, h2, h3, -⟩
    have := (loadBytes_ok (sp := sp) (cap := cap) (m := m) (n := 4) (a := a) (vs := [s0, s1, s2, s3])).2
      ⟨rfl, .inr hc, fun i hi => by
        obtain _ | _ | _ | _ | i := i <;> simp_all
        omega⟩
    simp [h] at this
  | ok vs =>
    obtain ⟨hl, hc, hh⟩ := loadBytes_ok.1 h
    match vs, hl with
    | [s0, s1, s2, s3], _ =>
      have h0 := hh 0 (by simp)
      have h1 := hh 1 (by simp)
      have h2 := hh 2 (by simp)
      have h3 := hh 3 (by simp)
      simp only [Nat.add_zero, List.getElem?_cons_zero, List.getElem?_cons_succ] at h0 h1 h2 h3
      simp only [Except.ok.injEq, h0, h1, h2, h3, Option.some.injEq]
      constructor
      · rintro rfl; exact ⟨by omega, s0, s1, s2, s3, rfl, rfl, rfl, rfl, rfl⟩
      · rintro ⟨-, _, _, _, _, rfl, rfl, rfl, rfl, rfl⟩; rfl

theorem storeBytes_ok {sp : Space} {cap : Nat} {m n : Memory} {a : Nat} {vs : List Byte} :
    storeBytes sp cap m a vs = .ok n ↔ (vs = [] ∨ a + vs.length ≤ cap) ∧ n = m.writeList a vs := by
  unfold storeBytes
  split_ifs with h <;> simp [h, eq_comm]

end Sys2Proof.Machine
end

