-- ==== Sys2Proof/Laws/State.lean ====
section
/-! SUPPORT. One lemma per field per register update of Machine/Ops.lean, so that no proof unfolds an update. -/

namespace Sys2Proof.Machine

section
variable (s : State)

/-! ### setPc -/
@[simp] theorem setPc_msgCap (p : PC) : (s.setPc p).msgCap = s.msgCap := rfl
@[simp] theorem setPc_pc (p : PC) : (s.setPc p).pc = p := rfl
@[simp] theorem setPc_busy (p : PC) : (s.setPc p).busy = s.busy := rfl
@[simp] theorem setPc_done (p : PC) : (s.setPc p).done = s.done := rfl
@[simp] theorem setPc_len (p : PC) : (s.setPc p).len = s.len := rfl
@[simp] theorem setPc_pl (p : PC) : (s.setPc p).pl = s.pl := rfl
@[simp] theorem setPc_nblk (p : PC) : (s.setPc p).nblk = s.nblk := rfl
@[simp] theorem setPc_h (p : PC) : (s.setPc p).h = s.h := rfl
@[simp] theorem setPc_a (p : PC) : (s.setPc p).a = s.a := rfl
@[simp] theorem setPc_b (p : PC) : (s.setPc p).b = s.b := rfl
@[simp] theorem setPc_c (p : PC) : (s.setPc p).c = s.c := rfl
@[simp] theorem setPc_d (p : PC) : (s.setPc p).d = s.d := rfl
@[simp] theorem setPc_e (p : PC) : (s.setPc p).e = s.e := rfl
@[simp] theorem setPc_temp (p : PC) : (s.setPc p).temp = s.temp := rfl
@[simp] theorem setPc_w (p : PC) : (s.setPc p).w = s.w := rfl
@[simp] theorem setPc_msg (p : PC) : (s.setPc p).msg = s.msg := rfl
@[simp] theorem setPc_pbuf (p : PC) : (s.setPc p).pbuf = s.pbuf := rfl
@[simp] theorem setPc_digest (p : PC) : (s.setPc p).digest = s.digest := rfl
@[simp] theorem setPc_hexstr (p : PC) : (s.setPc p).hexstr = s.hexstr := rfl
@[simp] theorem setPc_turns (p : PC) : (s.setPc p).turns = s.turns := rfl
@[simp] theorem setPc_rdata (p : PC) : (s.setPc p).rdata = s.rdata := rfl
@[simp] theorem setPc_freeIdx (p : PC) : (s.setPc p).freeIdx = s.freeIdx := rfl

/-! ### setBusy -/
@[simp] theorem setBusy_msgCap (v : Bool) : (s.setBusy v).msgCap = s.msgCap := rfl
@[simp] theorem setBusy_pc (v : Bool) : (s.setBusy v).pc = s.pc := rfl
@[simp] theorem setBusy_busy (v : Bool) : (s.setBusy v).busy = v := rfl
@[simp] theorem setBusy_done (v : Bool) : (s.setBusy v).done = s.done := rfl
@[simp] theorem setBusy_len (v : Bool) : (s.setBusy v).len = s.len := rfl
@[simp] theorem setBusy_pl (v : Bool) : (s.setBusy v).pl = s.pl := rfl
@[simp] theorem setBusy_nblk (v : Bool) : (s.setBusy v).nblk = s.nblk := rfl
@[simp] theorem setBusy_h (v : Bool) : (s.setBusy v).h = s.h := rfl
@[simp] theorem setBusy_a (v : Bool) : (s.setBusy v).a = s.a := rfl
@[simp] theorem setBusy_b (v : Bool) : (s.setBusy v).b = s.b := rfl
@[simp] theorem setBusy_c (v : Bool) : (s.setBusy v).c = s.c := rfl
@[simp] theorem setBusy_d (v : Bool) : (s.setBusy v).d = s.d := rfl
@[simp] theorem setBusy_e (v : Bool) : (s.setBusy v).e = s.e := rfl
@[simp] theorem setBusy_temp (v : Bool) : (s.setBusy v).temp = s.temp := rfl
@[simp] theorem setBusy_w (v : Bool) : (s.setBusy v).w = s.w := rfl
@[simp] theorem setBusy_msg (v : Bool) : (s.setBusy v).msg = s.msg := rfl
@[simp] theorem setBusy_pbuf (v : Bool) : (s.setBusy v).pbuf = s.pbuf := rfl
@[simp] theorem setBusy_digest (v : Bool) : (s.setBusy v).digest = s.digest := rfl
@[simp] theorem setBusy_hexstr (v : Bool) : (s.setBusy v).hexstr = s.hexstr := rfl
@[simp] theorem setBusy_turns (v : Bool) : (s.setBusy v).turns = s.turns := rfl
@[simp] theorem setBusy_rdata (v : Bool) : (s.setBusy v).rdata = s.rdata := rfl
@[simp] theorem setBusy_freeIdx (v : Bool) : (s.setBusy v).freeIdx = s.freeIdx := rfl

/-! ### setDone -/
@[simp] theorem setDone_msgCap (v : Bool) : (s.setDone v).msgCap = s.msgCap := rfl
@[simp] theorem setDone_pc (v : Bool) : (s.setDone v).pc = s.pc := rfl
@[simp] theorem setDone_busy (v : Bool) : (s.setDone v).busy = s.busy := rfl
@[simp] theorem setDone_done (v : Bool) : (s.setDone v).done = v := rfl
@[simp] theorem setDone_len (v : Bool) : (s.setDone v).len = s.len := rfl
@[simp] theorem setDone_pl (v : Bool) : (s.setDone v).pl = s.pl := rfl
@[simp] theorem setDone_nblk (v : Bool) : (s.setDone v).nblk = s.nblk := rfl
@[simp] theorem setDone_h (v : Bool) : (s.setDone v).h = s.h := rfl
@[simp] theorem setDone_a (v : Bool) : (s.setDone v).a = s.a := rfl
@[simp] theorem setDone_b (v : Bool) : (s.setDone v).b = s.b := rfl
@[simp] theorem setDone_c (v : Bool) : (s.setDone v).c = s.c := rfl
@[simp] theorem setDone_d (v : Bool) : (s.setDone v).d = s.d := rfl
@[simp] theorem setDone_e (v : Bool) : (s.setDone v).e = s.e := rfl
@[simp] theorem setDone_temp (v : Bool) : (s.setDone v).temp = s.temp := rfl
@[simp] theorem setDone_w (v : Bool) : (s.setDone v).w = s.w := rfl
@[simp] theorem setDone_msg (v : Bool) : (s.setDone v).msg = s.msg := rfl
@[simp] theorem setDone_pbuf (v : Bool) : (s.setDone v).pbuf = s.pbuf := rfl
@[simp] theorem setDone_digest (v : Bool) : (s.setDone v).digest = s.digest := rfl
@[simp] theorem setDone_hexstr (v : Bool) : (s.setDone v).hexstr = s.hexstr := rfl
@[simp] theorem setDone_turns (v : Bool) : (s.setDone v).turns = s.turns := rfl
@[simp] theorem setDone_rdata (v : Bool) : (s.setDone v).rdata = s.rdata := rfl
@[simp] theorem setDone_freeIdx (v : Bool) : (s.setDone v).freeIdx = s.freeIdx := rfl

/-! ### setLen -/
@[simp] theorem setLen_msgCap (v : BitVec 61) : (s.setLen v).msgCap = s.msgCap := rfl
@[simp] theorem setLen_pc (v : BitVec 61) : (s.setLen v).pc = s.pc := rfl
@[simp] theorem setLen_busy (v : BitVec 61) : (s.setLen v).busy = s.busy := rfl
@[simp] theorem setLen_done (v : BitVec 61) : (s.setLen v).done = s.done := rfl
@[simp] theorem setLen_len (v : BitVec 61) : (s.setLen v).len = v := rfl
@[simp] theorem setLen_pl (v : BitVec 61) : (s.setLen v).pl = s.pl := rfl
@[simp] theorem setLen_nblk (v : BitVec 61) : (s.setLen v).nblk = s.nblk := rfl
@[simp] theorem setLen_h (v : BitVec 61) : (s.setLen v).h = s.h := rfl
@[simp] theorem setLen_a (v : BitVec 61) : (s.setLen v).a = s.a := rfl
@[simp] theorem setLen_b (v : BitVec 61) : (s.setLen v).b = s.b := rfl
@[simp] theorem setLen_c (v : BitVec 61) : (s.setLen v).c = s.c := rfl
@[simp] theorem setLen_d (v : BitVec 61) : (s.setLen v).d = s.d := rfl
@[simp] theorem setLen_e (v : BitVec 61) : (s.setLen v).e = s.e := rfl
@[simp] theorem setLen_temp (v : BitVec 61) : (s.setLen v).temp = s.temp := rfl
@[simp] theorem setLen_w (v : BitVec 61) : (s.setLen v).w = s.w := rfl
@[simp] theorem setLen_msg (v : BitVec 61) : (s.setLen v).msg = s.msg := rfl
@[simp] theorem setLen_pbuf (v : BitVec 61) : (s.setLen v).pbuf = s.pbuf := rfl
@[simp] theorem setLen_digest (v : BitVec 61) : (s.setLen v).digest = s.digest := rfl
@[simp] theorem setLen_hexstr (v : BitVec 61) : (s.setLen v).hexstr = s.hexstr := rfl
@[simp] theorem setLen_turns (v : BitVec 61) : (s.setLen v).turns = s.turns := rfl
@[simp] theorem setLen_rdata (v : BitVec 61) : (s.setLen v).rdata = s.rdata := rfl
@[simp] theorem setLen_freeIdx (v : BitVec 61) : (s.setLen v).freeIdx = s.freeIdx := rfl

/-! ### setPl -/
@[simp] theorem setPl_msgCap (v : BitVec 62) : (s.setPl v).msgCap = s.msgCap := rfl
@[simp] theorem setPl_pc (v : BitVec 62) : (s.setPl v).pc = s.pc := rfl
@[simp] theorem setPl_busy (v : BitVec 62) : (s.setPl v).busy = s.busy := rfl
@[simp] theorem setPl_done (v : BitVec 62) : (s.setPl v).done = s.done := rfl
@[simp] theorem setPl_len (v : BitVec 62) : (s.setPl v).len = s.len := rfl
@[simp] theorem setPl_pl (v : BitVec 62) : (s.setPl v).pl = some v := rfl
@[simp] theorem setPl_nblk (v : BitVec 62) : (s.setPl v).nblk = s.nblk := rfl
@[simp] theorem setPl_h (v : BitVec 62) : (s.setPl v).h = s.h := rfl
@[simp] theorem setPl_a (v : BitVec 62) : (s.setPl v).a = s.a := rfl
@[simp] theorem setPl_b (v : BitVec 62) : (s.setPl v).b = s.b := rfl
@[simp] theorem setPl_c (v : BitVec 62) : (s.setPl v).c = s.c := rfl
@[simp] theorem setPl_d (v : BitVec 62) : (s.setPl v).d = s.d := rfl
@[simp] theorem setPl_e (v : BitVec 62) : (s.setPl v).e = s.e := rfl
@[simp] theorem setPl_temp (v : BitVec 62) : (s.setPl v).temp = s.temp := rfl
@[simp] theorem setPl_w (v : BitVec 62) : (s.setPl v).w = s.w := rfl
@[simp] theorem setPl_msg (v : BitVec 62) : (s.setPl v).msg = s.msg := rfl
@[simp] theorem setPl_pbuf (v : BitVec 62) : (s.setPl v).pbuf = s.pbuf := rfl
@[simp] theorem setPl_digest (v : BitVec 62) : (s.setPl v).digest = s.digest := rfl
@[simp] theorem setPl_hexstr (v : BitVec 62) : (s.setPl v).hexstr = s.hexstr := rfl
@[simp] theorem setPl_turns (v : BitVec 62) : (s.setPl v).turns = s.turns := rfl
@[simp] theorem setPl_rdata (v : BitVec 62) : (s.setPl v).rdata = s.rdata := rfl
@[simp] theorem setPl_freeIdx (v : BitVec 62) : (s.setPl v).freeIdx = s.freeIdx := rfl

/-! ### setNblk -/
@[simp] theorem setNblk_msgCap (v : BitVec 56) : (s.setNblk v).msgCap = s.msgCap := rfl
@[simp] theorem setNblk_pc (v : BitVec 56) : (s.setNblk v).pc = s.pc := rfl
@[simp] theorem setNblk_busy (v : BitVec 56) : (s.setNblk v).busy = s.busy := rfl
@[simp] theorem setNblk_done (v : BitVec 56) : (s.setNblk v).done = s.done := rfl
@[simp] theorem setNblk_len (v : BitVec 56) : (s.setNblk v).len = s.len := rfl
@[simp] theorem setNblk_pl (v : BitVec 56) : (s.setNblk v).pl = s.pl := rfl
@[simp] theorem setNblk_nblk (v : BitVec 56) : (s.setNblk v).nblk = some v := rfl
@[simp] theorem setNblk_h (v : BitVec 56) : (s.setNblk v).h = s.h := rfl
@[simp] theorem setNblk_a (v : BitVec 56) : (s.setNblk v).a = s.a := rfl
@[simp] theorem setNblk_b (v : BitVec 56) : (s.setNblk v).b = s.b := rfl
@[simp] theorem setNblk_c (v : BitVec 56) : (s.setNblk v).c = s.c := rfl
@[simp] theorem setNblk_d (v : BitVec 56) : (s.setNblk v).d = s.d := rfl
@[simp] theorem setNblk_e (v : BitVec 56) : (s.setNblk v).e = s.e := rfl
@[simp] theorem setNblk_temp (v : BitVec 56) : (s.setNblk v).temp = s.temp := rfl
@[simp] theorem setNblk_w (v : BitVec 56) : (s.setNblk v).w = s.w := rfl
@[simp] theorem setNblk_msg (v : BitVec 56) : (s.setNblk v).msg = s.msg := rfl
@[simp] theorem setNblk_pbuf (v : BitVec 56) : (s.setNblk v).pbuf = s.pbuf := rfl
@[simp] theorem setNblk_digest (v : BitVec 56) : (s.setNblk v).digest = s.digest := rfl
@[simp] theorem setNblk_hexstr (v : BitVec 56) : (s.setNblk v).hexstr = s.hexstr := rfl
@[simp] theorem setNblk_turns (v : BitVec 56) : (s.setNblk v).turns = s.turns := rfl
@[simp] theorem setNblk_rdata (v : BitVec 56) : (s.setNblk v).rdata = s.rdata := rfl
@[simp] theorem setNblk_freeIdx (v : BitVec 56) : (s.setNblk v).freeIdx = s.freeIdx := rfl

/-! ### setH -/
@[simp] theorem setH_msgCap (v : Words5) : (s.setH v).msgCap = s.msgCap := rfl
@[simp] theorem setH_pc (v : Words5) : (s.setH v).pc = s.pc := rfl
@[simp] theorem setH_busy (v : Words5) : (s.setH v).busy = s.busy := rfl
@[simp] theorem setH_done (v : Words5) : (s.setH v).done = s.done := rfl
@[simp] theorem setH_len (v : Words5) : (s.setH v).len = s.len := rfl
@[simp] theorem setH_pl (v : Words5) : (s.setH v).pl = s.pl := rfl
@[simp] theorem setH_nblk (v : Words5) : (s.setH v).nblk = s.nblk := rfl
@[simp] theorem setH_h (v : Words5) : (s.setH v).h = #v[some v.a, some v.b, some v.c, some v.d, some v.e] := rfl
@[simp] theorem setH_a (v : Words5) : (s.setH v).a = s.a := rfl
@[simp] theorem setH_b (v : Words5) : (s.setH v).b = s.b := rfl
@[simp] theorem setH_c (v : Words5) : (s.setH v).c = s.c := rfl
@[simp] theorem setH_d (v : Words5) : (s.setH v).d = s.d := rfl
@[simp] theorem setH_e (v : Words5) : (s.setH v).e = s.e := rfl
@[simp] theorem setH_temp (v : Words5) : (s.setH v).temp = s.temp := rfl
@[simp] theorem setH_w (v : Words5) : (s.setH v).w = s.w := rfl
@[simp] theorem setH_msg (v : Words5) : (s.setH v).msg = s.msg := rfl
@[simp] theorem setH_pbuf (v : Words5) : (s.setH v).pbuf = s.pbuf := rfl
@[simp] theorem setH_digest (v : Words5) : (s.setH v).digest = s.digest := rfl
@[simp] theorem setH_hexstr (v : Words5) : (s.setH v).hexstr = s.hexstr := rfl
@[simp] theorem setH_turns (v : Words5) : (s.setH v).turns = s.turns := rfl
@[simp] theorem setH_rdata (v : Words5) : (s.setH v).rdata = s.rdata := rfl
@[simp] theorem setH_freeIdx (v : Words5) : (s.setH v).freeIdx = s.freeIdx := rfl

/-! ### setWork -/
@[simp] theorem setWork_msgCap (v : Words5) : (s.setWork v).msgCap = s.msgCap := rfl
@[simp] theorem setWork_pc (v : Words5) : (s.setWork v).pc = s.pc := rfl
@[simp] theorem setWork_busy (v : Words5) : (s.setWork v).busy = s.busy := rfl
@[simp] theorem setWork_done (v : Words5) : (s.setWork v).done = s.done := rfl
@[simp] theorem setWork_len (v : Words5) : (s.setWork v).len = s.len := rfl
@[simp] theorem setWork_pl (v : Words5) : (s.setWork v).pl = s.pl := rfl
@[simp] theorem setWork_nblk (v : Words5) : (s.setWork v).nblk = s.nblk := rfl
@[simp] theorem setWork_h (v : Words5) : (s.setWork v).h = s.h := rfl
@[simp] theorem setWork_a (v : Words5) : (s.setWork v).a = some v.a := rfl
@[simp] theorem setWork_b (v : Words5) : (s.setWork v).b = some v.b := rfl
@[simp] theorem setWork_c (v : Words5) : (s.setWork v).c = some v.c := rfl
@[simp] theorem setWork_d (v : Words5) : (s.setWork v).d = some v.d := rfl
@[simp] theorem setWork_e (v : Words5) : (s.setWork v).e = some v.e := rfl
@[simp] theorem setWork_temp (v : Words5) : (s.setWork v).temp = s.temp := rfl
@[simp] theorem setWork_w (v : Words5) : (s.setWork v).w = s.w := rfl
@[simp] theorem setWork_msg (v : Words5) : (s.setWork v).msg = s.msg := rfl
@[simp] theorem setWork_pbuf (v : Words5) : (s.setWork v).pbuf = s.pbuf := rfl
@[simp] theorem setWork_digest (v : Words5) : (s.setWork v).digest = s.digest := rfl
@[simp] theorem setWork_hexstr (v : Words5) : (s.setWork v).hexstr = s.hexstr := rfl
@[simp] theorem setWork_turns (v : Words5) : (s.setWork v).turns = s.turns := rfl
@[simp] theorem setWork_rdata (v : Words5) : (s.setWork v).rdata = s.rdata := rfl
@[simp] theorem setWork_freeIdx (v : Words5) : (s.setWork v).freeIdx = s.freeIdx := rfl

/-! ### setTemp -/
@[simp] theorem setTemp_msgCap (v : Word) : (s.setTemp v).msgCap = s.msgCap := rfl
@[simp] theorem setTemp_pc (v : Word) : (s.setTemp v).pc = s.pc := rfl
@[simp] theorem setTemp_busy (v : Word) : (s.setTemp v).busy = s.busy := rfl
@[simp] theorem setTemp_done (v : Word) : (s.setTemp v).done = s.done := rfl
@[simp] theorem setTemp_len (v : Word) : (s.setTemp v).len = s.len := rfl
@[simp] theorem setTemp_pl (v : Word) : (s.setTemp v).pl = s.pl := rfl
@[simp] theorem setTemp_nblk (v : Word) : (s.setTemp v).nblk = s.nblk := rfl
@[simp] theorem setTemp_h (v : Word) : (s.setTemp v).h = s.h := rfl
@[simp] theorem setTemp_a (v : Word) : (s.setTemp v).a = s.a := rfl
@[simp] theorem setTemp_b (v : Word) : (s.setTemp v).b = s.b := rfl
@[simp] theorem setTemp_c (v : Word) : (s.setTemp v).c = s.c := rfl
@[simp] theorem setTemp_d (v : Word) : (s.setTemp v).d = s.d := rfl
@[simp] theorem setTemp_e (v : Word) : (s.setTemp v).e = s.e := rfl
@[simp] theorem setTemp_temp (v : Word) : (s.setTemp v).temp = some v := rfl
@[simp] theorem setTemp_w (v : Word) : (s.setTemp v).w = s.w := rfl
@[simp] theorem setTemp_msg (v : Word) : (s.setTemp v).msg = s.msg := rfl
@[simp] theorem setTemp_pbuf (v : Word) : (s.setTemp v).pbuf = s.pbuf := rfl
@[simp] theorem setTemp_digest (v : Word) : (s.setTemp v).digest = s.digest := rfl
@[simp] theorem setTemp_hexstr (v : Word) : (s.setTemp v).hexstr = s.hexstr := rfl
@[simp] theorem setTemp_turns (v : Word) : (s.setTemp v).turns = s.turns := rfl
@[simp] theorem setTemp_rdata (v : Word) : (s.setTemp v).rdata = s.rdata := rfl
@[simp] theorem setTemp_freeIdx (v : Word) : (s.setTemp v).freeIdx = s.freeIdx := rfl

/-! ### setW -/
@[simp] theorem setW_msgCap (j : Nat) (v : Word) : (s.setW j v).msgCap = s.msgCap := rfl
@[simp] theorem setW_pc (j : Nat) (v : Word) : (s.setW j v).pc = s.pc := rfl
@[simp] theorem setW_busy (j : Nat) (v : Word) : (s.setW j v).busy = s.busy := rfl
@[simp] theorem setW_done (j : Nat) (v : Word) : (s.setW j v).done = s.done := rfl
@[simp] theorem setW_len (j : Nat) (v : Word) : (s.setW j v).len = s.len := rfl
@[simp] theorem setW_pl (j : Nat) (v : Word) : (s.setW j v).pl = s.pl := rfl
@[simp] theorem setW_nblk (j : Nat) (v : Word) : (s.setW j v).nblk = s.nblk := rfl
@[simp] theorem setW_h (j : Nat) (v : Word) : (s.setW j v).h = s.h := rfl
@[simp] theorem setW_a (j : Nat) (v : Word) : (s.setW j v).a = s.a := rfl
@[simp] theorem setW_b (j : Nat) (v : Word) : (s.setW j v).b = s.b := rfl
@[simp] theorem setW_c (j : Nat) (v : Word) : (s.setW j v).c = s.c := rfl
@[simp] theorem setW_d (j : Nat) (v : Word) : (s.setW j v).d = s.d := rfl
@[simp] theorem setW_e (j : Nat) (v : Word) : (s.setW j v).e = s.e := rfl
@[simp] theorem setW_temp (j : Nat) (v : Word) : (s.setW j v).temp = s.temp := rfl
@[simp] theorem setW_w (j : Nat) (v : Word) : (s.setW j v).w = s.w.setIfInBounds j (some v) := rfl
@[simp] theorem setW_msg (j : Nat) (v : Word) : (s.setW j v).msg = s.msg := rfl
@[simp] theorem setW_pbuf (j : Nat) (v : Word) : (s.setW j v).pbuf = s.pbuf := rfl
@[simp] theorem setW_digest (j : Nat) (v : Word) : (s.setW j v).digest = s.digest := rfl
@[simp] theorem setW_hexstr (j : Nat) (v : Word) : (s.setW j v).hexstr = s.hexstr := rfl
@[simp] theorem setW_turns (j : Nat) (v : Word) : (s.setW j v).turns = s.turns := rfl
@[simp] theorem setW_rdata (j : Nat) (v : Word) : (s.setW j v).rdata = s.rdata := rfl
@[simp] theorem setW_freeIdx (j : Nat) (v : Word) : (s.setW j v).freeIdx = s.freeIdx := rfl

/-! ### invalidateW -/
@[simp] theorem invalidateW_msgCap : (s.invalidateW).msgCap = s.msgCap := rfl
@[simp] theorem invalidateW_pc : (s.invalidateW).pc = s.pc := rfl
@[simp] theorem invalidateW_busy : (s.invalidateW).busy = s.busy := rfl
@[simp] theorem invalidateW_done : (s.invalidateW).done = s.done := rfl
@[simp] theorem invalidateW_len : (s.invalidateW).len = s.len := rfl
@[simp] theorem invalidateW_pl : (s.invalidateW).pl = s.pl := rfl
@[simp] theorem invalidateW_nblk : (s.invalidateW).nblk = s.nblk := rfl
@[simp] theorem invalidateW_h : (s.invalidateW).h = s.h := rfl
@[simp] theorem invalidateW_a : (s.invalidateW).a = s.a := rfl
@[simp] theorem invalidateW_b : (s.invalidateW).b = s.b := rfl
@[simp] theorem invalidateW_c : (s.invalidateW).c = s.c := rfl
@[simp] theorem invalidateW_d : (s.invalidateW).d = s.d := rfl
@[simp] theorem invalidateW_e : (s.invalidateW).e = s.e := rfl
@[simp] theorem invalidateW_temp : (s.invalidateW).temp = s.temp := rfl
@[simp] theorem invalidateW_w : (s.invalidateW).w = Vector.replicate 80 none := rfl
@[simp] theorem invalidateW_msg : (s.invalidateW).msg = s.msg := rfl
@[simp] theorem invalidateW_pbuf : (s.invalidateW).pbuf = s.pbuf := rfl
@[simp] theorem invalidateW_digest : (s.invalidateW).digest = s.digest := rfl
@[simp] theorem invalidateW_hexstr : (s.invalidateW).hexstr = s.hexstr := rfl
@[simp] theorem invalidateW_turns : (s.invalidateW).turns = s.turns := rfl
@[simp] theorem invalidateW_rdata : (s.invalidateW).rdata = s.rdata := rfl
@[simp] theorem invalidateW_freeIdx : (s.invalidateW).freeIdx = s.freeIdx := rfl

/-! ### setMsg -/
@[simp] theorem setMsg_msgCap (m : Memory) : (s.setMsg m).msgCap = s.msgCap := rfl
@[simp] theorem setMsg_pc (m : Memory) : (s.setMsg m).pc = s.pc := rfl
@[simp] theorem setMsg_busy (m : Memory) : (s.setMsg m).busy = s.busy := rfl
@[simp] theorem setMsg_done (m : Memory) : (s.setMsg m).done = s.done := rfl
@[simp] theorem setMsg_len (m : Memory) : (s.setMsg m).len = s.len := rfl
@[simp] theorem setMsg_pl (m : Memory) : (s.setMsg m).pl = s.pl := rfl
@[simp] theorem setMsg_nblk (m : Memory) : (s.setMsg m).nblk = s.nblk := rfl
@[simp] theorem setMsg_h (m : Memory) : (s.setMsg m).h = s.h := rfl
@[simp] theorem setMsg_a (m : Memory) : (s.setMsg m).a = s.a := rfl
@[simp] theorem setMsg_b (m : Memory) : (s.setMsg m).b = s.b := rfl
@[simp] theorem setMsg_c (m : Memory) : (s.setMsg m).c = s.c := rfl
@[simp] theorem setMsg_d (m : Memory) : (s.setMsg m).d = s.d := rfl
@[simp] theorem setMsg_e (m : Memory) : (s.setMsg m).e = s.e := rfl
@[simp] theorem setMsg_temp (m : Memory) : (s.setMsg m).temp = s.temp := rfl
@[simp] theorem setMsg_w (m : Memory) : (s.setMsg m).w = s.w := rfl
@[simp] theorem setMsg_msg (m : Memory) : (s.setMsg m).msg = m := rfl
@[simp] theorem setMsg_pbuf (m : Memory) : (s.setMsg m).pbuf = s.pbuf := rfl
@[simp] theorem setMsg_digest (m : Memory) : (s.setMsg m).digest = s.digest := rfl
@[simp] theorem setMsg_hexstr (m : Memory) : (s.setMsg m).hexstr = s.hexstr := rfl
@[simp] theorem setMsg_turns (m : Memory) : (s.setMsg m).turns = s.turns := rfl
@[simp] theorem setMsg_rdata (m : Memory) : (s.setMsg m).rdata = s.rdata := rfl
@[simp] theorem setMsg_freeIdx (m : Memory) : (s.setMsg m).freeIdx = s.freeIdx := rfl

/-! ### setPbuf -/
@[simp] theorem setPbuf_msgCap (m : Memory) : (s.setPbuf m).msgCap = s.msgCap := rfl
@[simp] theorem setPbuf_pc (m : Memory) : (s.setPbuf m).pc = s.pc := rfl
@[simp] theorem setPbuf_busy (m : Memory) : (s.setPbuf m).busy = s.busy := rfl
@[simp] theorem setPbuf_done (m : Memory) : (s.setPbuf m).done = s.done := rfl
@[simp] theorem setPbuf_len (m : Memory) : (s.setPbuf m).len = s.len := rfl
@[simp] theorem setPbuf_pl (m : Memory) : (s.setPbuf m).pl = s.pl := rfl
@[simp] theorem setPbuf_nblk (m : Memory) : (s.setPbuf m).nblk = s.nblk := rfl
@[simp] theorem setPbuf_h (m : Memory) : (s.setPbuf m).h = s.h := rfl
@[simp] theorem setPbuf_a (m : Memory) : (s.setPbuf m).a = s.a := rfl
@[simp] theorem setPbuf_b (m : Memory) : (s.setPbuf m).b = s.b := rfl
@[simp] theorem setPbuf_c (m : Memory) : (s.setPbuf m).c = s.c := rfl
@[simp] theorem setPbuf_d (m : Memory) : (s.setPbuf m).d = s.d := rfl
@[simp] theorem setPbuf_e (m : Memory) : (s.setPbuf m).e = s.e := rfl
@[simp] theorem setPbuf_temp (m : Memory) : (s.setPbuf m).temp = s.temp := rfl
@[simp] theorem setPbuf_w (m : Memory) : (s.setPbuf m).w = s.w := rfl
@[simp] theorem setPbuf_msg (m : Memory) : (s.setPbuf m).msg = s.msg := rfl
@[simp] theorem setPbuf_pbuf (m : Memory) : (s.setPbuf m).pbuf = m := rfl
@[simp] theorem setPbuf_digest (m : Memory) : (s.setPbuf m).digest = s.digest := rfl
@[simp] theorem setPbuf_hexstr (m : Memory) : (s.setPbuf m).hexstr = s.hexstr := rfl
@[simp] theorem setPbuf_turns (m : Memory) : (s.setPbuf m).turns = s.turns := rfl
@[simp] theorem setPbuf_rdata (m : Memory) : (s.setPbuf m).rdata = s.rdata := rfl
@[simp] theorem setPbuf_freeIdx (m : Memory) : (s.setPbuf m).freeIdx = s.freeIdx := rfl

/-! ### setDigest -/
@[simp] theorem setDigest_msgCap (m : Memory) : (s.setDigest m).msgCap = s.msgCap := rfl
@[simp] theorem setDigest_pc (m : Memory) : (s.setDigest m).pc = s.pc := rfl
@[simp] theorem setDigest_busy (m : Memory) : (s.setDigest m).busy = s.busy := rfl
@[simp] theorem setDigest_done (m : Memory) : (s.setDigest m).done = s.done := rfl
@[simp] theorem setDigest_len (m : Memory) : (s.setDigest m).len = s.len := rfl
@[simp] theorem setDigest_pl (m : Memory) : (s.setDigest m).pl = s.pl := rfl
@[simp] theorem setDigest_nblk (m : Memory) : (s.setDigest m).nblk = s.nblk := rfl
@[simp] theorem setDigest_h (m : Memory) : (s.setDigest m).h = s.h := rfl
@[simp] theorem setDigest_a (m : Memory) : (s.setDigest m).a = s.a := rfl
@[simp] theorem setDigest_b (m : Memory) : (s.setDigest m).b = s.b := rfl
@[simp] theorem setDigest_c (m : Memory) : (s.setDigest m).c = s.c := rfl
@[simp] theorem setDigest_d (m : Memory) : (s.setDigest m).d = s.d := rfl
@[simp] theorem setDigest_e (m : Memory) : (s.setDigest m).e = s.e := rfl
@[simp] theorem setDigest_temp (m : Memory) : (s.setDigest m).temp = s.temp := rfl
@[simp] theorem setDigest_w (m : Memory) : (s.setDigest m).w = s.w := rfl
@[simp] theorem setDigest_msg (m : Memory) : (s.setDigest m).msg = s.msg := rfl
@[simp] theorem setDigest_pbuf (m : Memory) : (s.setDigest m).pbuf = s.pbuf := rfl
@[simp] theorem setDigest_digest (m : Memory) : (s.setDigest m).digest = m := rfl
@[simp] theorem setDigest_hexstr (m : Memory) : (s.setDigest m).hexstr = s.hexstr := rfl
@[simp] theorem setDigest_turns (m : Memory) : (s.setDigest m).turns = s.turns := rfl
@[simp] theorem setDigest_rdata (m : Memory) : (s.setDigest m).rdata = s.rdata := rfl
@[simp] theorem setDigest_freeIdx (m : Memory) : (s.setDigest m).freeIdx = s.freeIdx := rfl

/-! ### setHexstr -/
@[simp] theorem setHexstr_msgCap (m : Memory) : (s.setHexstr m).msgCap = s.msgCap := rfl
@[simp] theorem setHexstr_pc (m : Memory) : (s.setHexstr m).pc = s.pc := rfl
@[simp] theorem setHexstr_busy (m : Memory) : (s.setHexstr m).busy = s.busy := rfl
@[simp] theorem setHexstr_done (m : Memory) : (s.setHexstr m).done = s.done := rfl
@[simp] theorem setHexstr_len (m : Memory) : (s.setHexstr m).len = s.len := rfl
@[simp] theorem setHexstr_pl (m : Memory) : (s.setHexstr m).pl = s.pl := rfl
@[simp] theorem setHexstr_nblk (m : Memory) : (s.setHexstr m).nblk = s.nblk := rfl
@[simp] theorem setHexstr_h (m : Memory) : (s.setHexstr m).h = s.h := rfl
@[simp] theorem setHexstr_a (m : Memory) : (s.setHexstr m).a = s.a := rfl
@[simp] theorem setHexstr_b (m : Memory) : (s.setHexstr m).b = s.b := rfl
@[simp] theorem setHexstr_c (m : Memory) : (s.setHexstr m).c = s.c := rfl
@[simp] theorem setHexstr_d (m : Memory) : (s.setHexstr m).d = s.d := rfl
@[simp] theorem setHexstr_e (m : Memory) : (s.setHexstr m).e = s.e := rfl
@[simp] theorem setHexstr_temp (m : Memory) : (s.setHexstr m).temp = s.temp := rfl
@[simp] theorem setHexstr_w (m : Memory) : (s.setHexstr m).w = s.w := rfl
@[simp] theorem setHexstr_msg (m : Memory) : (s.setHexstr m).msg = s.msg := rfl
@[simp] theorem setHexstr_pbuf (m : Memory) : (s.setHexstr m).pbuf = s.pbuf := rfl
@[simp] theorem setHexstr_digest (m : Memory) : (s.setHexstr m).digest = s.digest := rfl
@[simp] theorem setHexstr_hexstr (m : Memory) : (s.setHexstr m).hexstr = m := rfl
@[simp] theorem setHexstr_turns (m : Memory) : (s.setHexstr m).turns = s.turns := rfl
@[simp] theorem setHexstr_rdata (m : Memory) : (s.setHexstr m).rdata = s.rdata := rfl
@[simp] theorem setHexstr_freeIdx (m : Memory) : (s.setHexstr m).freeIdx = s.freeIdx := rfl

/-! ### setTurns -/
@[simp] theorem setTurns_msgCap (ts : List Turn) : (s.setTurns ts).msgCap = s.msgCap := rfl
@[simp] theorem setTurns_pc (ts : List Turn) : (s.setTurns ts).pc = s.pc := rfl
@[simp] theorem setTurns_busy (ts : List Turn) : (s.setTurns ts).busy = s.busy := rfl
@[simp] theorem setTurns_done (ts : List Turn) : (s.setTurns ts).done = s.done := rfl
@[simp] theorem setTurns_len (ts : List Turn) : (s.setTurns ts).len = s.len := rfl
@[simp] theorem setTurns_pl (ts : List Turn) : (s.setTurns ts).pl = s.pl := rfl
@[simp] theorem setTurns_nblk (ts : List Turn) : (s.setTurns ts).nblk = s.nblk := rfl
@[simp] theorem setTurns_h (ts : List Turn) : (s.setTurns ts).h = s.h := rfl
@[simp] theorem setTurns_a (ts : List Turn) : (s.setTurns ts).a = s.a := rfl
@[simp] theorem setTurns_b (ts : List Turn) : (s.setTurns ts).b = s.b := rfl
@[simp] theorem setTurns_c (ts : List Turn) : (s.setTurns ts).c = s.c := rfl
@[simp] theorem setTurns_d (ts : List Turn) : (s.setTurns ts).d = s.d := rfl
@[simp] theorem setTurns_e (ts : List Turn) : (s.setTurns ts).e = s.e := rfl
@[simp] theorem setTurns_temp (ts : List Turn) : (s.setTurns ts).temp = s.temp := rfl
@[simp] theorem setTurns_w (ts : List Turn) : (s.setTurns ts).w = s.w := rfl
@[simp] theorem setTurns_msg (ts : List Turn) : (s.setTurns ts).msg = s.msg := rfl
@[simp] theorem setTurns_pbuf (ts : List Turn) : (s.setTurns ts).pbuf = s.pbuf := rfl
@[simp] theorem setTurns_digest (ts : List Turn) : (s.setTurns ts).digest = s.digest := rfl
@[simp] theorem setTurns_hexstr (ts : List Turn) : (s.setTurns ts).hexstr = s.hexstr := rfl
@[simp] theorem setTurns_turns (ts : List Turn) : (s.setTurns ts).turns = ts := rfl
@[simp] theorem setTurns_rdata (ts : List Turn) : (s.setTurns ts).rdata = s.rdata := rfl
@[simp] theorem setTurns_freeIdx (ts : List Turn) : (s.setTurns ts).freeIdx = s.freeIdx := rfl

/-! ### setRdata -/
@[simp] theorem setRdata_msgCap (v : Word) : (s.setRdata v).msgCap = s.msgCap := rfl
@[simp] theorem setRdata_pc (v : Word) : (s.setRdata v).pc = s.pc := rfl
@[simp] theorem setRdata_busy (v : Word) : (s.setRdata v).busy = s.busy := rfl
@[simp] theorem setRdata_done (v : Word) : (s.setRdata v).done = s.done := rfl
@[simp] theorem setRdata_len (v : Word) : (s.setRdata v).len = s.len := rfl
@[simp] theorem setRdata_pl (v : Word) : (s.setRdata v).pl = s.pl := rfl
@[simp] theorem setRdata_nblk (v : Word) : (s.setRdata v).nblk = s.nblk := rfl
@[simp] theorem setRdata_h (v : Word) : (s.setRdata v).h = s.h := rfl
@[simp] theorem setRdata_a (v : Word) : (s.setRdata v).a = s.a := rfl
@[simp] theorem setRdata_b (v : Word) : (s.setRdata v).b = s.b := rfl
@[simp] theorem setRdata_c (v : Word) : (s.setRdata v).c = s.c := rfl
@[simp] theorem setRdata_d (v : Word) : (s.setRdata v).d = s.d := rfl
@[simp] theorem setRdata_e (v : Word) : (s.setRdata v).e = s.e := rfl
@[simp] theorem setRdata_temp (v : Word) : (s.setRdata v).temp = s.temp := rfl
@[simp] theorem setRdata_w (v : Word) : (s.setRdata v).w = s.w := rfl
@[simp] theorem setRdata_msg (v : Word) : (s.setRdata v).msg = s.msg := rfl
@[simp] theorem setRdata_pbuf (v : Word) : (s.setRdata v).pbuf = s.pbuf := rfl
@[simp] theorem setRdata_digest (v : Word) : (s.setRdata v).digest = s.digest := rfl
@[simp] theorem setRdata_hexstr (v : Word) : (s.setRdata v).hexstr = s.hexstr := rfl
@[simp] theorem setRdata_turns (v : Word) : (s.setRdata v).turns = s.turns := rfl
@[simp] theorem setRdata_rdata (v : Word) : (s.setRdata v).rdata = some v := rfl
@[simp] theorem setRdata_freeIdx (v : Word) : (s.setRdata v).freeIdx = s.freeIdx := rfl

/-! ### bumpFree -/
@[simp] theorem bumpFree_msgCap : (s.bumpFree).msgCap = s.msgCap := rfl
@[simp] theorem bumpFree_pc : (s.bumpFree).pc = s.pc := rfl
@[simp] theorem bumpFree_busy : (s.bumpFree).busy = s.busy := rfl
@[simp] theorem bumpFree_done : (s.bumpFree).done = s.done := rfl
@[simp] theorem bumpFree_len : (s.bumpFree).len = s.len := rfl
@[simp] theorem bumpFree_pl : (s.bumpFree).pl = s.pl := rfl
@[simp] theorem bumpFree_nblk : (s.bumpFree).nblk = s.nblk := rfl
@[simp] theorem bumpFree_h : (s.bumpFree).h = s.h := rfl
@[simp] theorem bumpFree_a : (s.bumpFree).a = s.a := rfl
@[simp] theorem bumpFree_b : (s.bumpFree).b = s.b := rfl
@[simp] theorem bumpFree_c : (s.bumpFree).c = s.c := rfl
@[simp] theorem bumpFree_d : (s.bumpFree).d = s.d := rfl
@[simp] theorem bumpFree_e : (s.bumpFree).e = s.e := rfl
@[simp] theorem bumpFree_temp : (s.bumpFree).temp = s.temp := rfl
@[simp] theorem bumpFree_w : (s.bumpFree).w = s.w := rfl
@[simp] theorem bumpFree_msg : (s.bumpFree).msg = s.msg := rfl
@[simp] theorem bumpFree_pbuf : (s.bumpFree).pbuf = s.pbuf := rfl
@[simp] theorem bumpFree_digest : (s.bumpFree).digest = s.digest := rfl
@[simp] theorem bumpFree_hexstr : (s.bumpFree).hexstr = s.hexstr := rfl
@[simp] theorem bumpFree_turns : (s.bumpFree).turns = s.turns := rfl
@[simp] theorem bumpFree_rdata : (s.bumpFree).rdata = s.rdata := rfl
@[simp] theorem bumpFree_freeIdx : (s.bumpFree).freeIdx = s.freeIdx + 1 := rfl

end

end Sys2Proof.Machine
end

