-- ==== Sys2Proof/Laws/Ops.lean ====
section
/-! SUPPORT. For each shared operation and operand form, one lemma that says everything it can do. Proofs cite these and do not
unfold the operations. -/

namespace Sys2Proof.Machine

/-! ## Continuations -/

@[simp] theorem onOk_ok {α : Type} (v : α) (k : α → Host.Outcome State Fault Refusal) : onOk (.ok v) k = k v := rfl

@[simp] theorem onOk_error {α : Type} (f : Fault) (k : α → Host.Outcome State Fault Refusal) :
    onOk (.error f) k = .fault f := rfl

/-- A next state comes only from an operand that was read. -/
theorem onOk_next {α : Type} {x : Except Fault α} {k : α → Host.Outcome State Fault Refusal} {t : State} :
    onOk x k = .next t ↔ ∃ v, x = .ok v ∧ k v = .next t := by
  cases x <;> simp

/-- A refusal never comes from an operand read. -/
theorem onOk_refused {α : Type} {x : Except Fault α} {k : α → Host.Outcome State Fault Refusal} {r : Refusal} :
    onOk x k = .refused r ↔ ∃ v, x = .ok v ∧ k v = .refused r := by
  cases x <;> simp

theorem withIdx_next {lo hi : Nat} {j : BitVec 7} {k : Host.Outcome State Fault Refusal} {t : State} :
    withIdx lo hi j k = .next t ↔ idxWithin lo hi j = true ∧ k = .next t := by
  unfold withIdx; split_ifs with h <;> simp [h]

/-- An index outside the row is the one ground for a refusal of a format X meaning. -/
theorem withIdx_refused {lo hi : Nat} {j : BitVec 7} {k : Host.Outcome State Fault Refusal} {r : Refusal}
    (hk : k ≠ .refused r) : withIdx lo hi j k = .refused r ↔ idxWithin lo hi j = false ∧ r = .noMicroOp := by
  unfold withIdx; split_ifs with h <;> simp [h, hk, eq_comm]

theorem idxWithin_iff {lo hi : Nat} {j : BitVec 7} : idxWithin lo hi j = true ↔ lo ≤ j.toNat ∧ j.toNat ≤ hi := by
  simp [idxWithin]

theorem withIdx_eq {lo hi : Nat} {j : BitVec 7} (h : lo ≤ j.toNat ∧ j.toNat ≤ hi)
    (k : Host.Outcome State Fault Refusal) : withIdx lo hi j k = k := by
  unfold withIdx; rw [if_pos (idxWithin_iff.2 h)]

/-! ## Registers that may hold no value -/

theorem readPl_ok {s : State} {v : BitVec 62} : readPl s = .ok v ↔ s.pl = some v := valueOf_ok

theorem readNblk_ok {s : State} {v : BitVec 56} : readNblk s = .ok v ↔ s.nblk = some v := valueOf_ok

theorem readW_ok {s : State} {n : Nat} {v : Word} : readW s n = .ok v ↔ s.wAt n = some v := valueOf_ok

theorem readWork_ok {s : State} {v : Words5} : readWork s = .ok v ↔ s.workIs v := by
  unfold readWork State.workIs
  obtain ⟨a, b, c, d, e⟩ := v
  cases s.a <;> cases s.b <;> cases s.c <;> cases s.d <;> cases s.e <;> simp [valueOf, bind, Except.bind, pure, Except.pure]

theorem readH_ok {s : State} {v : Words5} : readH s = .ok v ↔ s.hIs v := by
  have key : s.hIs v ↔ s.h[0] = some v.a ∧ s.h[1] = some v.b ∧ s.h[2] = some v.c ∧ s.h[3] = some v.d ∧
      s.h[4] = some v.e := by
    unfold State.hIs
    constructor
    · intro h; rw [h]; exact ⟨rfl, rfl, rfl, rfl, rfl⟩
    · rintro ⟨h0, h1, h2, h3, h4⟩
      ext i hi x
      obtain _ | _ | _ | _ | _ | i := i
      · simp [h0]
      · simp [h1]
      · simp [h2]
      · simp [h3]
      · simp [h4]
      · omega
  rw [key]
  unfold readH
  obtain ⟨a, b, c, d, e⟩ := v
  cases s.h[0] <;> cases s.h[1] <;> cases s.h[2] <;> cases s.h[3] <;> cases s.h[4] <;>
    simp [valueOf, bind, Except.bind, pure, Except.pure]

/-! ## The schedule -/

theorem wAt_setW (s : State) (j : Nat) (v : Word) (n : Nat) :
    (s.setW j v).wAt n = if j = n ∧ n < 80 then some v else s.wAt n := by
  unfold State.wAt
  simp only [setW_w, Vector.getElem?_setIfInBounds]
  by_cases h : j = n
  · subst h
    by_cases h' : j < 80
    · simp [h']
    · simp [h']
  · simp [h]

theorem wAt_invalidateW (s : State) (n : Nat) : (s.invalidateW).wAt n = none := by
  unfold State.wAt
  simp only [invalidateW_w, Vector.getElem?_replicate]
  split_ifs <;> rfl

/-- `wAt` depends on W alone. -/
theorem wAt_congr {s t : State} (h : t.w = s.w) (n : Nat) : t.wAt n = s.wAt n := by
  unfold State.wAt; rw [h]

/-! ## Appending to PBUF -/

theorem appendPbuf_ok {pl : BitVec 62} {vs : List Byte} {s t : State} :
    appendPbuf pl vs s = .ok t ↔ (vs = [] ∨ pl.toNat + vs.length ≤ pbufCap s.msgCap) ∧
      t = (s.setPbuf (s.pbuf.writeList pl.toNat vs)).setPl (pl + BitVec.ofNat 62 vs.length) := by
  unfold appendPbuf
  cases h : storeBytes .pbuf (pbufCap s.msgCap) s.pbuf pl.toNat vs with
  | error f =>
    simp only [reduceCtorEq, false_iff, not_and]
    intro hc
    have := (storeBytes_ok (sp := .pbuf) (m := s.pbuf)).2 ⟨hc, rfl⟩
    simp [h] at this
  | ok m =>
    obtain ⟨hc, rfl⟩ := storeBytes_ok.1 h
    simp [hc, eq_comm]

/-- PBUF_CAP is a multiple of 64, at least MSG_CAP + 9, and far below 2^62. -/
theorem pbufCap_bounds (cap : Fin (2 ^ 61)) : (cap : Nat) + 9 ≤ pbufCap cap ∧ pbufCap cap % 64 = 0 ∧
    pbufCap cap ≤ 2 ^ 61 + 64 := by
  have := cap.isLt
  unfold pbufCap; omega

/-! ## Next pc -/

theorem loopPc_lt {op : BitVec 4} {last : Nat} {after : PC} {blk : BitVec 56} {j : BitVec 7} (h : j.toNat < last) :
    loopPc op last after blk j = ⟨op, blk, j + 1⟩ := if_pos h

theorem loopPc_last {op : BitVec 4} {last : Nat} {after : PC} {blk : BitVec 56} {j : BitVec 7} (h : ¬ j.toNat < last) :
    loopPc op last after blk j = after := if_neg h

end Sys2Proof.Machine
end

