-- ==== Sys2Proof/Laws/Exec.lean ====
section
/-! SUPPORT. For each meaning, once: when it answers a next state, and which. Every frame and every result is read off these;
no proof unfolds a meaning again. -/

namespace Sys2Proof.Machine

theorem execInit_next {s t : State} : execInit s = .next t ↔ t = (s.setH iv).setPc ⟨Op.pcpy, 0, 0⟩ := by
  simp [execInit, eq_comm]

theorem execPcpy_next {s t : State} : execPcpy s = .next t ↔ ∃ vs : List Byte,
    vs.length = s.len.toNat ∧ (s.len.toNat = 0 ∨ s.len.toNat ≤ s.msgCap) ∧ s.msg.holds 0 vs ∧
    (vs = [] ∨ vs.length ≤ pbufCap s.msgCap) ∧
    t = ((s.setPbuf (s.pbuf.writeList 0 vs)).setPl (s.len.setWidth 62)).setPc ⟨Op.pmrk, 0, 0⟩ := by
  simp only [execPcpy, onOk_next, loadBytes_ok, storeBytes_ok, Nat.zero_add, Host.Outcome.next.injEq]
  constructor
  · rintro ⟨vs, ⟨h1, h2, h3⟩, m, ⟨h4, rfl⟩, rfl⟩; exact ⟨vs, h1, h2, h3, h4, rfl⟩
  · rintro ⟨vs, h1, h2, h3, h4, rfl⟩; exact ⟨vs, ⟨h1, h2, h3⟩, _, ⟨h4, rfl⟩, rfl⟩

/-- What PMRK, PZER and PLEN share: PL is read and bytes are appended. -/
theorem append_next {s t : State} {f : BitVec 62 → List Byte} {g : BitVec 62 → State → State} :
    (onOk (readPl s) fun pl => onOk (appendPbuf pl (f pl) s) fun u => .next (g pl u)) = .next t ↔
    ∃ pl, s.pl = some pl ∧ (f pl = [] ∨ pl.toNat + (f pl).length ≤ pbufCap s.msgCap) ∧
      t = g pl ((s.setPbuf (s.pbuf.writeList pl.toNat (f pl))).setPl (pl + BitVec.ofNat 62 (f pl).length)) := by
  simp only [onOk_next, readPl_ok, appendPbuf_ok, Host.Outcome.next.injEq]
  constructor
  · rintro ⟨pl, h1, u, ⟨h2, rfl⟩, rfl⟩; exact ⟨pl, h1, h2, rfl⟩
  · rintro ⟨pl, h1, h2, rfl⟩; exact ⟨pl, h1, _, ⟨h2, rfl⟩, rfl⟩

theorem execPmrk_next {s t : State} : execPmrk s = .next t ↔ ∃ pl, s.pl = some pl ∧ pl.toNat + 1 ≤ pbufCap s.msgCap ∧
    t = ((s.setPbuf (s.pbuf.writeList pl.toNat [0x80])).setPl (pl + 1)).setPc ⟨Op.pzer, 0, 0⟩ := by
  refine (append_next (f := fun _ => [0x80]) (g := fun _ u => u.setPc ⟨Op.pzer, 0, 0⟩)).trans ?_
  simp

theorem execPzer_next {s t : State} : execPzer s = .next t ↔ ∃ pl, s.pl = some pl ∧
    (zcountOfPl pl.toNat = 0 ∨ pl.toNat + zcountOfPl pl.toNat ≤ pbufCap s.msgCap) ∧
    t = ((s.setPbuf (s.pbuf.writeList pl.toNat (List.replicate (zcountOfPl pl.toNat) 0x00))).setPl
      (pl + BitVec.ofNat 62 (zcountOfPl pl.toNat))).setPc ⟨Op.plen, 0, 0⟩ := by
  refine (append_next (f := fun pl => List.replicate (zcountOfPl pl.toNat) 0x00)
    (g := fun _ u => u.setPc ⟨Op.plen, 0, 0⟩)).trans ?_
  simp only [List.replicate_eq_nil_iff, List.length_replicate]

theorem execPlen_next {s t : State} : execPlen s = .next t ↔ ∃ pl, s.pl = some pl ∧ pl.toNat + 8 ≤ pbufCap s.msgCap ∧
    t = (((s.setPbuf (s.pbuf.writeList pl.toNat (unbe64 (len8 s.len.toNat)))).setPl (pl + 8)).setNblk
      (BitVec.ofNat 56 ((pl.toNat + 8) / 64))).setPc ⟨Op.ldw, 0, 0⟩ := by
  refine (append_next (f := fun _ => unbe64 (len8 s.len.toNat))
    (g := fun pl u => (u.setNblk (BitVec.ofNat 56 ((pl.toNat + 8) / 64))).setPc ⟨Op.ldw, 0, 0⟩)).trans ?_
  have h : (unbe64 (len8 s.len.toNat)).length = 8 := rfl
  have h' : unbe64 (len8 s.len.toNat) ≠ [] := by simp [unbe64]
  simp only [h, h', false_or]
  rfl

theorem execLdw_next {j : BitVec 7} {s t : State} : execLdw j s = .next t ↔ j.toNat ≤ 15 ∧ ∃ v,
    load32 .pbuf (pbufCap s.msgCap) s.pbuf (ldwAddr s.pc.blk j) = .ok v ∧
    t = (s.setW j.toNat v).setPc (loopPc Op.ldw 15 ⟨Op.exp, s.pc.blk, 16⟩ s.pc.blk j) := by
  simp only [execLdw, withIdx_next, idxWithin_iff, onOk_next, Host.Outcome.next.injEq, Nat.zero_le, true_and,
    @eq_comm State _ t]

theorem execExp_next {j : BitVec 7} {s t : State} : execExp j s = .next t ↔ (16 ≤ j.toNat ∧ j.toNat ≤ 79) ∧
    ∃ w3 w8 w14 w16, s.wAt (j.toNat - 3) = some w3 ∧ s.wAt (j.toNat - 8) = some w8 ∧
    s.wAt (j.toNat - 14) = some w14 ∧ s.wAt (j.toNat - 16) = some w16 ∧
    t = (s.setW j.toNat (expandWord w3 w8 w14 w16)).setPc (loopPc Op.exp 79 ⟨Op.seed, s.pc.blk, 0⟩ s.pc.blk j) := by
  simp only [execExp, withIdx_next, idxWithin_iff, onOk_next, readW_ok, Host.Outcome.next.injEq]
  constructor
  · rintro ⟨h, w3, h3, w8, h8, w14, h14, w16, h16, rfl⟩; exact ⟨h, w3, w8, w14, w16, h3, h8, h14, h16, rfl⟩
  · rintro ⟨h, w3, w8, w14, w16, h3, h8, h14, h16, rfl⟩; exact ⟨h, w3, h3, w8, h8, w14, h14, w16, h16, rfl⟩

theorem execSeed_next {s t : State} : execSeed s = .next t ↔ ∃ v, s.hIs v ∧
    t = (s.setWork v).setPc ⟨Op.rnd, s.pc.blk, 0⟩ := by
  simp only [execSeed, onOk_next, readH_ok, Host.Outcome.next.injEq, @eq_comm State _ t]

theorem roundStep_next {f : Word → Word → Word → Word} {k : Word} {j : BitVec 7} {s t : State} :
    roundStep f k j s = .next t ↔ ∃ v w, s.workIs v ∧ s.wAt j.toNat = some w ∧
    t = ((s.setTemp (roundTemp f k w v)).setWork (roundWords f k w v)).setPc
      (loopPc Op.rnd 79 ⟨Op.fold, s.pc.blk, 0⟩ s.pc.blk j) := by
  simp only [roundStep, onOk_next, readWork_ok, readW_ok, Host.Outcome.next.injEq]
  constructor
  · rintro ⟨v, hv, w, hw, rfl⟩; exact ⟨v, w, hv, hw, rfl⟩
  · rintro ⟨v, w, hv, hw, rfl⟩; exact ⟨v, hv, w, hw, rfl⟩

theorem execRndCh_next {j : BitVec 7} {s t : State} :
    execRndCh j s = .next t ↔ j.toNat ≤ 19 ∧ roundStep ch k0 j s = .next t := by
  simp [execRndCh, withIdx_next, idxWithin_iff]

theorem execRndPar1_next {j : BitVec 7} {s t : State} :
    execRndPar1 j s = .next t ↔ (20 ≤ j.toNat ∧ j.toNat ≤ 39) ∧ roundStep par k1 j s = .next t := by
  simp [execRndPar1, withIdx_next, idxWithin_iff]

theorem execRndMaj_next {j : BitVec 7} {s t : State} :
    execRndMaj j s = .next t ↔ (40 ≤ j.toNat ∧ j.toNat ≤ 59) ∧ roundStep maj k2 j s = .next t := by
  simp [execRndMaj, withIdx_next, idxWithin_iff]

theorem execRndPar2_next {j : BitVec 7} {s t : State} :
    execRndPar2 j s = .next t ↔ (60 ≤ j.toNat ∧ j.toNat ≤ 79) ∧ roundStep par k3 j s = .next t := by
  simp [execRndPar2, withIdx_next, idxWithin_iff]

theorem execFold_next {s t : State} : execFold s = .next t ↔ ∃ h v n, s.hIs h ∧ s.workIs v ∧ s.nblk = some n ∧
    t = ((s.setH (foldWords h v)).invalidateW).setPc (foldPc s.pc.blk n) := by
  simp only [execFold, onOk_next, readH_ok, readWork_ok, readNblk_ok, Host.Outcome.next.injEq]
  constructor
  · rintro ⟨h, hh, v, hv, n, hn, rfl⟩; exact ⟨h, v, n, hh, hv, hn, rfl⟩
  · rintro ⟨h, v, n, hh, hv, hn, rfl⟩; exact ⟨h, hh, v, hv, n, hn, rfl⟩

theorem digestBytes_length (v : Words5) : (digestBytes v).length = 20 := rfl

theorem hexBytes_length (xs : List Byte) : (hexBytes xs).length = 2 * xs.length := by
  induction xs with
  | nil => rfl
  | cons x xs ih => simp only [hexBytes, hexByte, List.length_append, List.length_cons, List.length_nil, ih]; omega

theorem execSer_next {s t : State} : execSer s = .next t ↔ ∃ v, s.hIs v ∧
    t = (s.setDigest (s.digest.writeList 0 (digestBytes v))).setPc ⟨Op.hex, s.pc.blk, 0⟩ := by
  simp only [execSer, onOk_next, readH_ok, storeBytes_ok, digestBytes_length, Host.Outcome.next.injEq]
  constructor
  · rintro ⟨v, hv, m, hm, ht⟩; exact ⟨v, hv, by rw [← ht, hm.2]⟩
  · rintro ⟨v, hv, ht⟩; exact ⟨v, hv, _, ⟨.inr (Nat.le_refl 20), rfl⟩, ht.symm⟩

theorem execHex_next {s t : State} : execHex s = .next t ↔ ∃ xs : List Byte, xs.length = 20 ∧ s.digest.holds 0 xs ∧
    t = (s.setHexstr (s.hexstr.writeList 0 (hexBytes xs))).setPc ⟨Op.fin, s.pc.blk, 0⟩ := by
  simp only [execHex, onOk_next, loadBytes_ok, storeBytes_ok, hexBytes_length, Host.Outcome.next.injEq]
  constructor
  · rintro ⟨xs, ⟨hl, -, hh⟩, m, hm, ht⟩; exact ⟨xs, hl, hh, by rw [← ht, hm.2]⟩
  · rintro ⟨xs, hl, hh, ht⟩
    exact ⟨xs, ⟨hl, .inr (Nat.le_refl 20), hh⟩, _, ⟨.inr (by omega), rfl⟩, ht.symm⟩

theorem execFin_next {s t : State} : execFin s = .next t ↔ t = endHash s := by
  simp [execFin, eq_comm]

theorem execStart_next {c : Bool} {s t : State} : execStart c s = .next t ↔
    t = if s.busy then s else beginHash (if c then clearMessage s else s) := by
  unfold execStart; split_ifs <;> simp [eq_comm]

theorem execClear_next {s t : State} : execClear s = .next t ↔ t = if s.busy then s else clearMessage s := by
  unfold execClear; split_ifs <;> simp [eq_comm]

theorem execPush_next {b : Byte} {s t : State} : execPush b s = .next t ↔
    t = if s.busy = false ∧ s.len.toNat < s.msgCap then (s.setMsg (s.msg.write s.len.toNat b)).setLen (s.len + 1)
      else s := by
  unfold execPush
  by_cases h : s.busy <;> by_cases h' : s.len.toNat < (s.msgCap : Nat) <;> simp [h, h', eq_comm]

end Sys2Proof.Machine
end

