-- ==== Sys2Proof/Laws/Hash.lean ====
section
/-! SUPPORT. The laws of the pure functions of a hash and of what the memories and W hold: lengths, one element at a time. -/

namespace Sys2Proof.Machine

/-! ## Words and bytes -/

theorem rotl_eq (n : Word) (r : RotAmt) : rotl n r = n.rotateLeft r.val := by
  obtain ⟨r, h0, h1⟩ := r
  simp [rotl, BitVec.rotateLeft, BitVec.rotateLeftAux, Nat.mod_eq_of_lt h1]

/-- Eight bits of a value, by division. -/
theorem extractByte_eq {n : Nat} (v : BitVec n) (k : Nat) : v.extractLsb' k 8 = BitVec.ofNat 8 (v.toNat / 2 ^ k) := by
  apply BitVec.eq_of_toNat_eq; simp [Nat.shiftRight_eq_div_pow]

theorem unbe32_get (v : Word) (k : Nat) (hk : k < 4) :
    (unbe32 v)[k]? = some (BitVec.ofNat 8 (v.toNat / 256 ^ (3 - k))) := by
  unfold unbe32
  match k with
  | 0 | 1 | 2 | 3 => simp [extractByte_eq]

theorem unbe64_length (v : BitVec 64) : (unbe64 v).length = 8 := rfl

theorem unbe64_get (v : BitVec 64) (k : Nat) (hk : k < 8) :
    (unbe64 v)[k]? = some (BitVec.ofNat 8 (v.toNat / 256 ^ (7 - k))) := by
  unfold unbe64
  match k with
  | 0 | 1 | 2 | 3 | 4 | 5 | 6 | 7 => simp [extractByte_eq]

theorem digestBytes_get (v : Words5) (a : Nat) (ha : a < 20) :
    (digestBytes v)[a]? = some (BitVec.ofNat 8 ((v.toList.getD (a / 4) 0).toNat / 256 ^ (3 - a % 4))) := by
  obtain ⟨q, r, rfl, hr⟩ : ∃ q r, a = 4 * q + r ∧ r < 4 := ⟨a / 4, a % 4, by omega, by omega⟩
  rw [show (4 * q + r) / 4 = q by omega, show (4 * q + r) % 4 = r by omega, ← unbe32_get _ _ hr]
  have hq : q < 5 := by omega
  match q, r with
  | 0, 0 | 0, 1 | 0, 2 | 0, 3 | 1, 0 | 1, 1 | 1, 2 | 1, 3 | 2, 0 | 2, 1 | 2, 2 | 2, 3 | 3, 0 | 3, 1 | 3, 2 | 3, 3
  | 4, 0 | 4, 1 | 4, 2 | 4, 3 => rfl

theorem hexChar_eq (n : BitVec 4) :
    hexChar n = BitVec.ofNat 8 (if n.toNat ≤ 9 then 0x30 + n.toNat else 0x57 + n.toNat) := by
  revert n; decide

theorem hexBytes_get {xs : List Byte} {n : Nat} {x : Byte} (h : xs[n]? = some x) :
    (hexBytes xs)[2 * n]? = some (hexChar (x.extractLsb' 4 4)) ∧
    (hexBytes xs)[2 * n + 1]? = some (hexChar (x.extractLsb' 0 4)) := by
  induction xs generalizing n with
  | nil => simp at h
  | cons y ys ih =>
    cases n with
    | zero => simp at h; subst h; simp [hexBytes, hexByte]
    | succ n =>
      have := ih (n := n) (by simpa using h)
      rw [show 2 * (n + 1) = 2 * n + 1 + 1 by omega]; simpa [hexBytes, hexByte] using this

/-! ## Padding -/

theorem zcount_mod (l : Nat) : zcount l < 64 ∧ (l + 1 + zcount l) % 64 = 56 := by unfold zcount; omega

theorem pad_length (m : List Byte) : (pad m).length = m.length + 1 + zcount m.length + 8 := by
  simp [pad, unbe64_length]; try omega

/-- The padding as it grows, after PCPY, PMRK, PZER and PLEN. -/
theorem pad_take (m : List Byte) : (pad m).take m.length = m ∧ (pad m).take (m.length + 1) = m ++ [0x80] ∧
    (pad m).take (m.length + 1 + zcount m.length) = m ++ [0x80] ++ List.replicate (zcount m.length) 0 := by
  refine ⟨?_, ?_, ?_⟩
  · unfold pad; simp [List.append_assoc]
  · unfold pad; rw [List.append_assoc]; exact List.take_left' (by simp)
  · unfold pad; exact List.take_left' (by simp; omega)

theorem zcountOfPl_succ (l : Nat) : zcountOfPl (l + 1) = zcount l := by
  unfold zcountOfPl zcount; push_cast; congr 2; ring

/-- A byte of a block is a byte of the padded message. -/
theorem blockOf_getD {p : List Byte} {i k : Nat} (hk : k < 64) {v : Byte} (hv : p[64 * i + k]? = some v) :
    (blockOf p i).getD k 0 = v := by
  unfold blockOf
  rw [List.getD_eq_getElem?_getD, List.getElem?_take_of_lt hk, List.getElem?_drop, hv]; rfl

theorem digestOf_length (m : List Byte) : (digestOf m).length = 20 := digestBytes_length _

theorem hashOf_length (m : List Byte) : (hashOf m).length = 40 := by
  unfold hashOf; rw [hexBytes_length, digestOf_length]

/-! ## Message schedule -/

theorem scheduleUpTo_length (x : List Byte) (n : Nat) : (scheduleUpTo x n).length = n := by
  induction n with
  | zero => rfl
  | succ n ih => simp [scheduleUpTo, ih]

theorem scheduleUpTo_getD (x : List Byte) {j n : Nat} (h : j < n) : (scheduleUpTo x n).getD j 0 = scheduleWord x j := by
  induction n with
  | zero => omega
  | succ n ih =>
    by_cases hj : j = n
    · subst hj; rfl
    · simp only [scheduleUpTo]
      rw [← ih (by omega), List.getD_append _ _ _ _ (by rw [scheduleUpTo_length]; omega)]

theorem scheduleWord_lt (x : List Byte) {j : Nat} (h : j < 16) : scheduleWord x j = blockWord x j := by
  simp only [scheduleWord, scheduleUpTo]
  rw [List.getD_append_right _ _ _ _ (by rw [scheduleUpTo_length]), scheduleUpTo_length]
  simp [h]

theorem scheduleWord_ge (x : List Byte) {j : Nat} (h : 16 ≤ j) : scheduleWord x j =
    expandWord (scheduleWord x (j - 3)) (scheduleWord x (j - 8)) (scheduleWord x (j - 14)) (scheduleWord x (j - 16)) := by
  conv_lhs => simp only [scheduleWord, scheduleUpTo]
  rw [List.getD_append_right _ _ _ _ (by rw [scheduleUpTo_length]), scheduleUpTo_length]
  simp only [Nat.sub_self, List.getD_cons_zero]
  rw [if_neg (by omega), scheduleUpTo_getD, scheduleUpTo_getD, scheduleUpTo_getD, scheduleUpTo_getD] <;> omega

/-! ## What the state holds -/

/-- The message is the bytes of MSG[0..LEN), each of which holds a value. -/
theorem message_bytes {s : State} (hr : ∀ i, i < s.len.toNat → (s.msg.read i).isSome) :
    s.message.length = s.len.toNat ∧ s.msg.holds 0 s.message := by
  have hl : s.message.length = s.len.toNat := by simp [State.message]
  refine ⟨hl, fun i hi => ?_⟩
  rw [hl] at hi
  obtain ⟨v, hv⟩ := Option.isSome_iff_exists.1 (hr i hi)
  simp [State.message, hi, hv]

/-- The message depends on MSG and LEN alone. -/
theorem message_congr {s t : State} (hm : t.msg = s.msg) (hl : t.len = s.len) : t.message = s.message := by
  unfold State.message; rw [hm, hl]

/-- Two sequences of one length that stand at one address are the same sequence. -/
theorem holds_unique {m : Memory} {a : Nat} {us vs : List Byte} (hl : us.length = vs.length)
    (hu : m.holds a us) (hv : m.holds a vs) : us = vs := by
  refine List.ext_getElem? fun i => ?_
  by_cases h : i < us.length
  · rw [← hu i h, hv i (hl ▸ h)]
  · rw [List.getElem?_eq_none (by omega), List.getElem?_eq_none (by omega)]

theorem wAt_iff {s : State} {n : Nat} {v : Word} : s.wAt n = some v ↔ s.w[n]? = some (some v) := by
  unfold State.wAt; cases s.w[n]? <;> simp

theorem setW_get (s : State) (j : Nat) (v : Word) (i : Fin 80) :
    (s.setW j v).w[i] = if i.val = j then some v else s.w[i] := by
  simp [Vector.getElem_setIfInBounds, eq_comm]

/-- PL never wraps in a padded buffer. -/
theorem pl_add {pl : BitVec 62} {z : Nat} (h : pl.toNat + z ≤ 2 ^ 61 + 64) :
    (pl + BitVec.ofNat 62 z).toNat = pl.toNat + z := by
  rw [BitVec.toNat_add, BitVec.toNat_ofNat]; omega

end Sys2Proof.Machine
end

