-- ==== Sys2Proof/Laws/PerInstr.lean ====
section
/-! SUPPORT. Facts of every instruction as syntax, one lemma per constructor. `IssuedForm`: an encoding is either a
micro-operation word whose op code is one of R70's thirteen, never the rest state or a reserved code (R71), or a write to one
of the two command registers (R66). -/

namespace Sys2Proof.Laws.IssuedForm

/-- What the encoding of an instruction is. -/
def Statement (i : Instr) : Prop :=
  match encode i with
  | .uop w => 0x1 ≤ (uopOp w).toNat ∧ (uopOp w).toNat ≤ 0xD
  | .hostWrite off _ => off = ctrlOff ∨ off = msgPushOff

theorem init : Statement .init := by simp [Statement, encode]
theorem pcpy : Statement .pcpy := by simp [Statement, encode]
theorem pmrk : Statement .pmrk := by simp [Statement, encode]
theorem pzer : Statement .pzer := by simp [Statement, encode]
theorem plen : Statement .plen := by simp [Statement, encode]
theorem ldw (j : BitVec 7) : Statement (.ldw j) := by simp [Statement, encode]
theorem exp (j : BitVec 7) : Statement (.exp j) := by simp [Statement, encode]
theorem seed : Statement .seed := by simp [Statement, encode]
theorem rndCh (j : BitVec 7) : Statement (.rndCh j) := by simp [Statement, encode]
theorem rndPar1 (j : BitVec 7) : Statement (.rndPar1 j) := by simp [Statement, encode]
theorem rndMaj (j : BitVec 7) : Statement (.rndMaj j) := by simp [Statement, encode]
theorem rndPar2 (j : BitVec 7) : Statement (.rndPar2 j) := by simp [Statement, encode]
theorem fold : Statement .fold := by simp [Statement, encode]
theorem ser : Statement .ser := by simp [Statement, encode]
theorem hex : Statement .hex := by simp [Statement, encode]
theorem fin : Statement .fin := by simp [Statement, encode]
theorem start (c : Bool) : Statement (.start c) := Or.inl rfl
theorem clear : Statement .clear := Or.inl rfl
theorem push (b : Byte) : Statement (.push b) := Or.inr rfl

end Sys2Proof.Laws.IssuedForm
end

