-- ==== Sys2Proof/Laws/Step.lean ====
section
/-! SUPPORT. The step by whose turn it is, what a host's step can do, and runs of several steps. -/

namespace Sys2Proof.Machine

theorem step_nil {s : State} (h : s.turns = []) : step s = if s.busy then runUop s else .fault .stuck := by
  unfold step takeTurn; rw [h]

theorem step_core {s : State} {ts : List Turn} (h : s.turns = .core :: ts) :
    step s = if s.busy then runUop (s.setTurns ts) else .next (s.setTurns ts) := by
  unfold step takeTurn; rw [h]

theorem step_host {s : State} {a : HostAction} {ts : List Turn} (h : s.turns = .host a :: ts) :
    step s = hostStep a (s.setTurns ts) := by
  unfold step takeTurn; rw [h]

theorem runUop_ok {s : State} {i : Instr} (h : decodeUop (fetchWord s) = .ok i) : runUop s = exec i s := by
  unfold runUop; rw [h]

theorem runUop_error {s : State} {f : DecodeError} (h : decodeUop (fetchWord s) = .error f) :
    runUop s = .refused .noMicroOp := by
  unfold runUop; rw [h]

theorem hostWrite_ok {off : Nat} {v : Word} {i : Instr} (h : decodeWrite off v = .ok i) (s : State) :
    hostWrite off v s = exec i s := by
  unfold hostWrite; rw [h]

theorem hostWrite_error {off : Nat} {v : Word} {f : DecodeError} (h : decodeWrite off v = .error f) (s : State) :
    hostWrite off v s = .next s := by
  unfold hostWrite; rw [h]

theorem hostRead_plain {off : Nat} (h : resultReg off = none) (s : State) :
    hostRead off s = .next (s.setRdata (plainReg s off)) := by
  unfold hostRead; rw [h]

theorem hostRead_result {off : Nat} {r : Space × Nat} {s : State} (h : resultReg off = some r) (hd : s.done = true) :
    hostRead off s = onOk (loadResult s r) fun v => .next (s.setRdata v) := by
  unfold hostRead; rw [h]; simp only [hd, if_true]

theorem hostRead_free {off : Nat} {r : Space × Nat} {s : State} (h : resultReg off = some r) (hd : s.done = false) :
    hostRead off s = .next ((s.setRdata (Config.freeWord s.freeIdx)).bumpFree) := by
  unfold hostRead; rw [h]; simp [hd]

theorem hostStep_read {off : Nat} {size : AccessSize} (h : legalAccess off size = true) (s : State) :
    hostStep (.read off size) s = hostRead off s := if_pos h

theorem hostStep_write {off : Nat} {size : AccessSize} {v : Word} (h : legalAccess off size = true) (s : State) :
    hostStep (.write off size v) s = hostWrite off v s := if_pos h

theorem legalAccess_word {off : Nat} (h : off % 4 = 0) : legalAccess off .word = true := by simp [legalAccess, h]

/-- A command that reaches a busy core does nothing. -/
theorem exec_command_busy {off : Nat} {v : Word} {i : Instr} {s : State} (h : decodeWrite off v = .ok i)
    (hb : s.busy = true) : exec i s = .next s := by
  unfold decodeWrite at h
  split_ifs at h <;> simp only [Except.ok.injEq] at h <;> subst h <;>
    simp [exec, execStart, execClear, execPush, hb]

/-- The bits of STATUS. -/
theorem statusWord_bit (s : State) (i : Nat) : (statusWord s).getLsbD i =
    if i = 0 then s.busy else if i = 1 then s.done else if i = 2 then s.full else false := by
  unfold statusWord
  generalize s.full = f
  generalize s.done = d
  generalize s.busy = b
  by_cases hi : i < 32
  · have : ∀ (f d b : Bool) (i : Fin 32), (0#29 ++ BitVec.ofBool f ++ BitVec.ofBool d ++ BitVec.ofBool b).getLsbD i.val =
        if i.val = 0 then b else if i.val = 1 then d else if i.val = 2 then f else false := by decide
    exact this f d b ⟨i, hi⟩
  · rw [BitVec.getLsbD_of_ge _ _ (by omega), if_neg (by omega), if_neg (by omega), if_neg (by omega)]

theorem statusWord_toNat (s : State) : (statusWord s).toNat = s.busy.toNat + 2 * s.done.toNat + 4 * s.full.toNat := by
  unfold statusWord
  generalize s.full = f
  generalize s.done = d
  generalize s.busy = b
  revert f d b; decide

theorem resultReg_digest {k : Nat} (h : k < 5) : resultReg (0x20 + 4 * k) = some (.digest, 4 * k) := by
  unfold resultReg; rw [if_pos (by omega)]; simp

theorem resultReg_hexstr {k : Nat} (h : k < 10) : resultReg (0x40 + 4 * k) = some (.hexstr, 4 * k) := by
  unfold resultReg; rw [if_neg (by omega), if_pos (by omega)]; simp

/-! ## The invariant does not see the host's side -/

theorem inv_setTurns {s : State} (h : s.Inv) (ts : List Turn) : (s.setTurns ts).Inv :=
  ⟨h.wf, h.bounds, h.message, h.rest, h.result, h.phase⟩

theorem inv_setRdata {s : State} (h : s.Inv) (v : Word) : (s.setRdata v).Inv :=
  ⟨h.wf, h.bounds, h.message, h.rest, h.result, h.phase⟩

theorem inv_bumpFree {s : State} (h : s.Inv) : s.bumpFree.Inv :=
  ⟨h.wf, h.bounds, h.message, h.rest, h.result, h.phase⟩

/-! ## Runs -/

theorem run_step {M : Host.Core} {k : Nat} {s t : M.State} (h : M.step s = .next t) : M.run (k + 1) s = M.run k t := by
  simp only [Host.Core.run, h]

theorem run_succ {k : Nat} {s t : State} (h : step s = .next t) :
    Sys2Proof.core.run (k + 1) s = Sys2Proof.core.run k t := run_step (M := Sys2Proof.core) h

theorem run_append {M : Host.Core} {j k : Nat} {s t : M.State} (h : M.run j s = .next t) :
    M.run (j + k) s = M.run k t := by
  induction j generalizing s with
  | zero => cases h; rw [Nat.zero_add]
  | succ j ih =>
    rw [show j + 1 + k = (j + k) + 1 by omega]
    simp only [Host.Core.run] at h ⊢
    cases hs : M.step s with
    | next u => rw [hs] at h; exact ih h
    | fault f => rw [hs] at h; cases h
    | refused f => rw [hs] at h; cases h

theorem run_add {j k : Nat} {s t : State} (h : Sys2Proof.core.run j s = .next t) :
    Sys2Proof.core.run (j + k) s = Sys2Proof.core.run k t := run_append (M := Sys2Proof.core) h

end Sys2Proof.Machine
end

