-- ==== Sys2Proof/Tests/Slice0.lean ====
section
/-! SUPPORT. The model's own tests, each expected value taken from the spec (named in the test's comment), and for every
statement of the obligations that has hypotheses a witness: a concrete state and operands that meet them all. -/

namespace Sys2Proof.Tests

open Sys2Proof.Machine

/-! ## Helpers -/

/-- The next state of an outcome, if it is one. -/
def nextOf (o : Host.Outcome State Fault Refusal) : Option State :=
  match o with
  | .next t => some t
  | .fault _ => none
  | .refused _ => none

/-- Reset with a capacity of 64 bytes. -/
def st : State := State.resetWith ⟨64, by decide⟩

/-- `n` bytes of a memory from `a`. -/
def bytes (m : Memory) (a n : Nat) : List (Option Byte) := (List.range n).map fun i => m.read (a + i)

/-- The bytes "abc". -/
def abc : List Byte := [0x61, 0x62, 0x63]

/-- "abc" delivered, at a pc, busy. -/
def abcAt (p : PC) : State := { st with msg := [(0, 0x61), (1, 0x62), (2, 0x63)], len := 3, busy := true, pc := p }

/-- The padded block of "abc" (V4 of the spec: 61 62 63 80, zeros, length 0x18). -/
def abcBlock : List Byte := abc ++ [0x80] ++ List.replicate 59 0x00 ++ [0x18]

/-- The chaining value of "abc" after its one block (R138). -/
def abcH : Words5 := ⟨0xA9993E36, 0x4706816A, 0xBA3E2571, 0x7850C26C, 0x9CD0D89D⟩

/-- The 40 characters of the hash of "abc" (R152). -/
def abcHex : List Byte :=
  [0x61, 0x39, 0x39, 0x39, 0x33, 0x65, 0x33, 0x36, 0x34, 0x37] ++ [0x30, 0x36, 0x38, 0x31, 0x36, 0x61, 0x62, 0x61, 0x33, 0x65]
    ++ [0x32, 0x35, 0x37, 0x31, 0x37, 0x38, 0x35, 0x30, 0x63, 0x32] ++ [0x36, 0x63, 0x39, 0x63, 0x64, 0x30, 0x64, 0x38, 0x39, 0x64]

/-- The finished state of "abc" (V10.6). -/
def abcDone : State :=
  { st with
    msg := [(0, 0x61), (1, 0x62), (2, 0x63)], len := 3, done := true
    digest := Memory.writeList [] 0 (digestBytes abcH), hexstr := Memory.writeList [] 0 abcHex }

/-- What the next turn's read returns. -/
def readBack (s : State) (off : Nat) : Option (Option Word) :=
  (nextOf (step (s.setTurns [rd off]))).map (·.rdata)

/-! ## Well-formedness: one ill-formed term for each check (R72) -/

theorem test_wf_ldw : (Instr.ldw 15).wf = true ∧ (Instr.ldw 16).wf = false := by decide
theorem test_wf_exp : (Instr.exp 16).wf = true ∧ (Instr.exp 79).wf = true ∧
    (Instr.exp 15).wf = false ∧ (Instr.exp 80).wf = false := by decide
theorem test_wf_rndCh : (Instr.rndCh 0).wf = true ∧ (Instr.rndCh 20).wf = false := by decide
theorem test_wf_rndPar1 : (Instr.rndPar1 20).wf = true ∧ (Instr.rndPar1 19).wf = false ∧ (Instr.rndPar1 40).wf = false := by
  decide
theorem test_wf_rndMaj : (Instr.rndMaj 40).wf = true ∧ (Instr.rndMaj 39).wf = false ∧ (Instr.rndMaj 60).wf = false := by
  decide
theorem test_wf_rndPar2 : (Instr.rndPar2 79).wf = true ∧ (Instr.rndPar2 59).wf = false ∧ (Instr.rndPar2 80).wf = false := by
  decide

/-! ## Decoding: words written out from R70 (op in the four high bits, idx in the seven low ones) -/

theorem test_decode_padding_family : decodeUop 0b0001_0000000 = .ok .init ∧ decodeUop 0b0010_0000000 = .ok .pcpy ∧
    decodeUop 0b0011_0000000 = .ok .pmrk ∧ decodeUop 0b0100_0000000 = .ok .pzer ∧ decodeUop 0b0101_0000000 = .ok .plen := by
  decide
theorem test_decode_schedule_family : decodeUop 0b0110_0000101 = .ok (.ldw 5) ∧ decodeUop 0b0110_0001111 = .ok (.ldw 15) ∧
    decodeUop 0b0111_0010000 = .ok (.exp 16) ∧ decodeUop 0b0111_1001111 = .ok (.exp 79) := by decide
theorem test_decode_round_family : decodeUop 0b1000_0000000 = .ok .seed ∧ decodeUop 0b1001_0000000 = .ok (.rndCh 0) ∧
    decodeUop 0b1001_0010011 = .ok (.rndCh 19) ∧ decodeUop 0b1001_0010100 = .ok (.rndPar1 20) ∧
    decodeUop 0b1001_0101111 = .ok (.rndMaj 47) ∧ decodeUop 0b1001_0111100 = .ok (.rndPar2 60) ∧
    decodeUop 0b1001_1001111 = .ok (.rndPar2 79) ∧ decodeUop 0b1010_0000000 = .ok .fold := by decide
theorem test_decode_digest_family : decodeUop 0b1011_0000000 = .ok .ser ∧ decodeUop 0b1100_0000000 = .ok .hex ∧
    decodeUop 0b1101_0000000 = .ok .fin := by decide
theorem test_decode_host_family : decodeWrite 0x00 0x1 = .ok (.start false) ∧ decodeWrite 0x00 0x3 = .ok (.start true) ∧
    decodeWrite 0x00 0x2 = .ok .clear ∧ decodeWrite 0x10 0x162 = .ok (.push 0x62) := by decide

/-- R71, R72: the rest state, the reserved op codes, an index on a format N word, an index out of range. -/
theorem test_decode_refuses : decodeUop 0x000 = .error .idleOp ∧ decodeUop 0x700 = .error .reservedOp ∧
    decodeUop 0x780 = .error .reservedOp ∧ decodeUop 0x081 = .error .indexNotZero ∧
    decodeUop 0x310 = .error .indexOutOfRange ∧ decodeUop 0x38F = .error .indexOutOfRange ∧
    decodeUop 0x3D0 = .error .indexOutOfRange ∧ decodeUop 0x4D0 = .error .indexOutOfRange ∧
    decodeWrite 0x00 0xFFFFFFFC = .error .noCommandBit ∧ decodeWrite 0x04 0x3 = .error .noCommandRegister := by decide

/-- U6: of the 2048 words exactly 170 decode. -/
theorem test_decode_count :
    ((List.range 2048).filter fun n => (decodeUop (BitVec.ofNat 11 n)).toOption.isSome).length = 170 := by decide +kernel

theorem test_encode_words : encode .init = .uop 0x080 ∧ encode (.ldw 5) = .uop 0x305 ∧ encode (.exp 16) = .uop 0x390 ∧
    encode (.rndCh 0) = .uop 0x480 ∧ encode (.rndPar2 79) = .uop 0x4CF ∧ encode .fin = .uop 0x680 ∧
    encode (.push 0x61) = .hostWrite 0x10 0x61 := by decide

theorem test_table_words : decodeTableWord 16 0x305 = some (.ldw 5) ∧ decodeTableWord 16 0xF80 = none ∧
    decodeTableWord 32 0x1 = some (.start false) ∧ decodeTableWord 32 0x2 = some .clear ∧
    decodeTableWord 32 0x0 = some (.push 0x00) := by decide

/-! ## Primitive functions (spec section 2 of the vectors) -/

theorem test_add_wraps : add32 0xEFCDAB89 0x5738D5E1 = 0x4706816A ∧ add32 0xFFFFFFFF 0xFFFFFFFF = 0xFFFFFFFE := by decide
theorem test_rotl : rotl 0x67452301 rot5 = 0xE8A4602C ∧ rotl 0xEFCDAB89 rot30 = 0x7BF36AE2 ∧
    rotl 0x80000000 rot1 = 0x00000001 := by decide
theorem test_round_functions : ch 0xF0F0F0F0 0xCCCCCCCC 0xAAAAAAAA = 0xCACACACA ∧
    par 0xF0F0F0F0 0xCCCCCCCC 0xAAAAAAAA = 0x96969696 ∧ maj 0xF0F0F0F0 0xCCCCCCCC 0xAAAAAAAA = 0xE8E8E8E8 := by decide
theorem test_counters : len8 (2 ^ 61 - 1) = 0xFFFFFFFFFFFFFFF8 ∧ zcount 55 = 0 ∧ zcount 56 = 63 ∧ zcount 119 = 0 ∧
    zcount 120 = 63 := by decide
theorem test_packing : be32 0x61 0x62 0x63 0x80 = 0x61626380 ∧ unbe32 0x00000001 = [0x00, 0x00, 0x00, 0x01] ∧
    be64 0 0 0 0 0 0 0x01 0xC0 = 448 := by decide
theorem test_hex : hexByte 0x0A = [0x30, 0x61] ∧ hexByte 0xA9 = [0x61, 0x39] ∧ hexByte 0xFF = [0x66, 0x66] := by decide

/-! ## Whole hashes as functions (spec section 1: S1 with its last character, S2, S4) -/

theorem test_hash_abc : hashOf abc = abcHex := by decide +kernel
theorem test_hash_empty : digestOf [] = digestBytes ⟨0xDA39A3EE, 0x5E6B4B0D, 0x3255BFEF, 0x95601890, 0xAFD80709⟩ := by
  decide +kernel
theorem test_hash_two_blocks :
    digestOf ((List.range 14).flatMap fun i => (List.range 4).map fun k => BitVec.ofNat 8 (0x61 + i + k)) =
      digestBytes ⟨0x84983E44, 0x1C3BD26E, 0xBAAE4AA1, 0xF95129E5, 0xE54670F1⟩ := by decide +kernel

/-! ## One step of each instruction -/

/-- R101. -/
theorem test_init : (nextOf (execInit (abcAt ⟨1, 0, 0⟩))).map (fun t => (t.h.toList, t.pc)) =
    some ([some 0x67452301, some 0xEFCDAB89, some 0x98BADCFE, some 0x10325476, some 0xC3D2E1F0], ⟨2, 0, 0⟩) := by decide

/-- R106. -/
theorem test_pcpy : (nextOf (execPcpy (abcAt ⟨2, 0, 0⟩))).map (fun t => (bytes t.pbuf 0 4, t.pl, t.pc)) =
    some ([some 0x61, some 0x62, some 0x63, none], some 3, ⟨3, 0, 0⟩) := by decide

/-- R107. -/
theorem test_pmrk : (nextOf (execPmrk { abcAt ⟨3, 0, 0⟩ with pl := some 3 })).map (fun t => (bytes t.pbuf 3 2, t.pl)) =
    some ([some 0x80, none], some 4) := by decide

/-- R109: 52 zeros at PL = 4; none at PL = 56. -/
theorem test_pzer : (nextOf (execPzer { abcAt ⟨4, 0, 0⟩ with pl := some 4 })).map (fun t => (bytes t.pbuf 55 2, t.pl)) =
    some ([some 0x00, none], some 56) := by decide
theorem test_pzer_none : (nextOf (execPzer { abcAt ⟨4, 0, 0⟩ with pl := some 56 })).map (fun t => (t.pbuf, t.pl, t.pc)) =
    some ([], some 56, ⟨5, 0, 0⟩) := by decide

/-- R111. -/
theorem test_plen : (nextOf (execPlen { abcAt ⟨5, 0, 0⟩ with pl := some 56 })).map (fun t => (bytes t.pbuf 56 8, t.pl, t.nblk)) =
    some ([some 0, some 0, some 0, some 0, some 0, some 0, some 0, some 0x18], some 64, some 1) := by decide

/-- R121: words 0 and 15 of the "abc" block. -/
theorem test_ldw_first : (nextOf (execLdw 0 { abcAt ⟨6, 0, 0⟩ with pbuf := Memory.writeList [] 0 abcBlock })).map
    (fun t => (t.wAt 0, t.wAt 1, t.pc)) = some (some 0x61626380, none, ⟨6, 0, 1⟩) := by decide
theorem test_ldw_last : (nextOf (execLdw 15 { abcAt ⟨6, 0, 15⟩ with pbuf := Memory.writeList [] 0 abcBlock })).map
    (fun t => (t.wAt 15, t.pc)) = some (some 0x18, ⟨7, 0, 16⟩) := by decide

/-- R123: EXP 16 of the "abc" block. -/
theorem test_exp : (nextOf (execExp 16 ((((abcAt ⟨7, 0, 16⟩).setW 0 0x61626380).setW 2 0).setW 8 0 |>.setW 13 0))).map
    (fun t => (t.wAt 16, t.pc)) = some (some 0xC2C4C700, ⟨7, 0, 17⟩) := by decide
/-- R122 by hand at j = 79: taps 76, 71, 65 and 63, each of another value, and bit 31 of the XOR re-enters at bit 0. -/
theorem test_exp_taps : (nextOf (execExp 79 (((abcAt ⟨7, 0, 79⟩).setW 76 0x1).setW 71 0x10 |>.setW 65 0x100 |>.setW 63 0x80000000))).map
    (fun t => (t.wAt 79, t.pc)) = some (some 0x223, ⟨8, 0, 0⟩) := by decide

/-- R131. -/
theorem test_seed : (nextOf (execSeed ((abcAt ⟨8, 0, 0⟩).setH iv))).map (fun t => (t.a, t.b, t.c, t.d, t.e)) =
    some (some 0x67452301, some 0xEFCDAB89, some 0x98BADCFE, some 0x10325476, some 0xC3D2E1F0) := by decide

/-- R134, j = 0. -/
theorem test_rndCh : (nextOf (execRndCh 0 (((abcAt ⟨9, 0, 0⟩).setWork iv).setW 0 0x61626380))).map
    (fun t => (t.a, t.b, t.c, t.d, t.e)) =
    some (some 0x0116FC33, some 0x67452301, some 0x7BF36AE2, some 0x98BADCFE, some 0x10325476) := by decide

/-- R135, j = 20. -/
theorem test_rndPar1 : (nextOf (execRndPar1 20 (((abcAt ⟨9, 0, 20⟩).setWork
      ⟨0xFD9E1D7D, 0xDC64901D, 0x20AA99CA, 0xD3A49608, 0xC82F758B⟩).setW 20 0))).map (fun t => (t.a, t.b, t.c, t.d, t.e)) =
    some (some 0x1A37B0CA, some 0xFD9E1D7D, some 0x77192407, some 0x20AA99CA, some 0xD3A49608) := by decide

/-- R136, j = 40. -/
theorem test_rndMaj : (nextOf (execRndMaj 40 (((abcAt ⟨9, 0, 40⟩).setWork
      ⟨0x32DE1CBA, 0x4C986405, 0xF718E5CF, 0x03D447F6, 0xF72EEC32⟩).setW 40 0xD2E138C4))).map
      (fun t => (t.a, t.b, t.c, t.d, t.e)) =
    some (some 0xFC87DEDF, some 0x32DE1CBA, some 0x53261901, some 0xF718E5CF, some 0x03D447F6) := by decide

/-- R137, j = 79: the last round goes on to FOLD. -/
theorem test_rndPar2 : (nextOf (execRndPar2 79 (((abcAt ⟨9, 0, 79⟩).setWork
      ⟨0x5738D5E1, 0x860D21CC, 0x681E6DF6, 0xD8FDF6AD, 0xD7B9DA25⟩).setW 79 0x822E0879))).map
      (fun t => (t.a, t.c, t.temp, t.pc)) =
    some (some 0x42541B35, some 0x21834873, some 0x42541B35, ⟨0xA, 0, 0⟩) := by decide

/-- The state before the FOLD of "abc" (R138). -/
def foldState : State :=
  { ((abcAt ⟨0xA, 0, 0⟩).setH iv).setWork ⟨0x42541B35, 0x5738D5E1, 0x21834873, 0x681E6DF6, 0xD8FDF6AD⟩ with nblk := some 1 }

theorem test_fold : (nextOf (execFold (foldState.setW 79 0x822E0879))).map (fun t => (t.h.toList, t.wAt 79, t.pc)) =
    some (abcH.toList.map some, none, ⟨0xB, 1, 0⟩) := by decide
theorem test_fold_next_block : (nextOf (execFold (foldState.setNblk 2))).map (·.pc) = some ⟨6, 1, 0⟩ := by decide

/-- R150, V10.2: zero bytes are kept. -/
theorem test_ser : (nextOf (execSer ((abcAt ⟨0xB, 1, 0⟩).setH ⟨0x1, 0x200, 0x30000, 0x4000000, 0x0⟩))).map
    (fun t => bytes t.digest 0 20) = some ([0, 0, 0, 1, 0, 0, 2, 0, 0, 3, 0, 0, 4, 0, 0, 0, 0, 0, 0, 0].map some) := by decide

/-- R152, V10.3. -/
theorem test_hex_step : (nextOf (execHex ((abcAt ⟨0xC, 1, 0⟩).setDigest (Memory.writeList [] 0 (digestBytes abcH))))).map
    (fun t => (t.hexstr, t.pc)) = some (Memory.writeList [] 0 abcHex, ⟨0xD, 1, 0⟩) := by decide

/-- R154, V10.7. -/
theorem test_fin : (nextOf (execFin (abcAt ⟨0xD, 1, 0⟩))).map (fun t => (t.done, t.busy, t.pc, statusWord t)) =
    some (true, false, ⟨0, 0, 0⟩, 0x2) := by decide

/-- R184, R185. -/
theorem test_start : (nextOf (execStart false abcDone)).map (fun t => (t.busy, t.done, t.len, t.pc)) =
    some (true, false, 3, ⟨1, 0, 0⟩) := by decide
theorem test_start_clear : (nextOf (execStart true abcDone)).map (fun t => (t.busy, t.len)) = some (true, 0) := by decide

/-- R183: the result stays readable. -/
theorem test_clear : (nextOf (execClear abcDone)).map (fun t => (t.len, t.done, t.msg)) =
    some (0, true, [(0, 0x61), (1, 0x62), (2, 0x63)]) := by decide
theorem test_clear_busy : (nextOf (execClear (abcAt ⟨1, 0, 0⟩))).map (·.len) = some 3 := by decide

/-- R186: an append, and a byte dropped at FULL. -/
theorem test_push : (nextOf (execPush 0x64 abcDone)).map (fun t => (t.msg.read 3, t.len)) = some (some 0x64, 4) := by decide
theorem test_push_full : (nextOf (execPush 0x64 (st.setLen 64))).map (fun t => (t.msg, t.len, t.full)) =
    some ([], 64, true) := by decide

/-! ## Steps -/

/-- R181, V10.6: what the host reads after "abc". -/
theorem test_reads_done : readBack abcDone 0x04 = some (some 0x2) ∧ readBack abcDone 0x08 = some (some 0x3) ∧
    readBack abcDone 0x20 = some (some 0xA9993E36) ∧ readBack abcDone 0x30 = some (some 0x9CD0D89D) ∧
    readBack abcDone 0x40 = some (some 0x61393939) ∧ readBack abcDone 0x64 = some (some 0x64383964) ∧
    readBack abcDone 0x68 = some (some 0) ∧ readBack abcDone 0x3C = some (some 0) := by decide

/-- R221: what the host reads right after reset, also with MSG_CAP = 0. -/
theorem test_reads_reset : readBack st 0x04 = some (some 0) ∧ readBack (State.resetWith ⟨0, by decide⟩) 0x04 = some (some 4) ∧
    readBack st 0x08 = some (some 0) ∧ readBack st 0x0C = some (some 0) ∧ readBack st 0x00 = some (some 0) := by decide

/-- R21: LEN is read in two halves. -/
theorem test_reads_len : readBack (st.setLen 0x1234567890ABCDEF) 0x08 = some (some 0x90ABCDEF) ∧
    readBack (st.setLen 0x1234567890ABCDEF) 0x0C = some (some 0x12345678) := by decide

/-- A word placed by withFetchWord runs in the very next step. -/
theorem test_fetch_uop : (nextOf (step (State.reset.withFetchWord 16 0x100))).map (fun t => (t.pl, t.pc, t.turns)) =
    some (some 0, ⟨3, 0, 0⟩, []) := by decide
theorem test_fetch_write : (nextOf (step (State.reset.withFetchWord 32 0x1))).map (fun t => (t.busy, t.turns)) =
    some (true, []) := by decide

/-- R8, U3: the spec's own fault. LDW right after reset reads PBUF bytes that hold no value. -/
theorem test_fetch_invalid : (match step (State.reset.withFetchWord 16 0x300) with
    | .fault f => decide (f = .invalidRead (.byte .pbuf 0))
    | .next _ => false
    | .refused _ => false) = true := by decide

/-! ## Witnesses: for each statement with hypotheses, a state and operands that meet them all -/

theorem witness_RotateRoundTrip : (⟨27, by decide⟩ : RotAmt).val = 32 - rot5.val ∧ (⟨31, by decide⟩ : RotAmt).val = 32 - rot1.val := by
  decide
theorem witness_DecodeAfterEncode : (Instr.ldw 0).wf = true ∧ (Instr.exp 79).wf = true ∧ (Instr.push 0xFF).wf = true := by decide
theorem witness_EncodeAfterDecode : decodeUop 0x493 = .ok (.rndCh 19) ∧ decodeUop 0x494 = .ok (.rndPar1 20) := by decide
theorem witness_HostWriteCommands : (0xFFFFFFFD : Word).getLsbD 0 = true ∧
    ((2 : Word).getLsbD 0 = false ∧ (2 : Word).getLsbD 1 = true) ∧
    ((0xFFFFFFFC : Word).getLsbD 0 = false ∧ (0xFFFFFFFC : Word).getLsbD 1 = false) ∧ (0x04 ≠ 0x00 ∧ 0x04 ≠ 0x10) := by decide
theorem witness_PcpyCopiesTheMessage : let s := abcAt ⟨2, 0, 0⟩
    s.len.toNat ≤ s.msgCap ∧ ∀ i, i < s.len.toNat → (s.msg.read i).isSome := by decide
/-- The last byte of PBUF (PBUF_CAP = 128 at MSG_CAP = 64) is the boundary. -/
theorem witness_PmrkAppendsTheMarker : let s := st.setPl 127
    s.pl = some 127 ∧ (127 : BitVec 62).toNat + 1 ≤ pbufCap s.msgCap := by decide
theorem witness_PzerAppendsTheZeros :
    ((st.setPl 57).pl = some 57 ∧ 63 < 64 ∧ ((57 : BitVec 62).toNat + 63) % 64 = 56 ∧ (57 : BitVec 62).toNat + 63 ≤ pbufCap st.msgCap) ∧
    ((st.setPl 56).pl = some 56 ∧ 0 < 64 ∧ ((56 : BitVec 62).toNat + 0) % 64 = 56 ∧ (56 : BitVec 62).toNat + 0 ≤ pbufCap st.msgCap) := by
  decide
theorem witness_PlenAppendsTheLength : (st.setPl 120).pl = some 120 ∧ (120 : BitVec 62).toNat + 8 ≤ pbufCap st.msgCap := by decide
theorem witness_LdwLoadsABlockWord : let s := { abcAt ⟨6, 0, 15⟩ with pbuf := Memory.writeList [] 0 abcBlock }
    (15 : BitVec 7).toNat ≤ 15 ∧ 64 * s.pc.blk.toNat + 4 * (15 : BitVec 7).toNat + 4 ≤ pbufCap s.msgCap ∧
    s.pbuf.read 60 = some 0x00 ∧ s.pbuf.read 61 = some 0x00 ∧ s.pbuf.read 62 = some 0x00 ∧ s.pbuf.read 63 = some 0x18 := by decide
theorem witness_ExpDerivesAScheduleWord : let s := (((st.setW 13 1).setW 8 2).setW 2 3).setW 0 4
    16 ≤ (16 : BitVec 7).toNat ∧ (16 : BitVec 7).toNat ≤ 79 ∧ s.w[13]? = some (some 1) ∧ s.w[8]? = some (some 2) ∧
    s.w[2]? = some (some 3) ∧ s.w[0]? = some (some 4) := by decide
theorem witness_SeedCopiesTheChainingState : (st.setH iv).h = #v[some iv.a, some iv.b, some iv.c, some iv.d, some iv.e] := rfl
/-- One state for all four clauses: every entry of W holds a value; the boundary indices are 0, 19, 20, 39, 40, 59, 60, 79. -/
theorem witness_RoundMicroOperations : let s := { st.setWork iv with w := Vector.replicate 80 (some 7) }
    (s.a = some iv.a ∧ s.b = some iv.b ∧ s.c = some iv.c ∧ s.d = some iv.d ∧ s.e = some iv.e) ∧
    (∀ j ∈ [0, 19], s.w[j]? = some (some 7) ∧ j ≤ 19) ∧ (∀ j ∈ [20, 39], s.w[j]? = some (some 7) ∧ 20 ≤ j ∧ j ≤ 39) ∧
    (∀ j ∈ [40, 59], s.w[j]? = some (some 7) ∧ 40 ≤ j ∧ j ≤ 59) ∧ (∀ j ∈ [60, 79], s.w[j]? = some (some 7) ∧ 60 ≤ j ∧ j ≤ 79) := by
  decide
theorem witness_FoldAddsIntoTheChainingState :
    (foldState.h = #v[some iv.a, some iv.b, some iv.c, some iv.d, some iv.e] ∧ foldState.a = some 0x42541B35 ∧
      foldState.b = some 0x5738D5E1 ∧ foldState.c = some 0x21834873 ∧ foldState.d = some 0x681E6DF6 ∧ foldState.e = some 0xD8FDF6AD) ∧
    (foldState.nblk = some 1 ∧ foldState.pc.blk.toNat + 1 = (1 : BitVec 56).toNat) ∧
    ((foldState.setNblk 2).nblk = some 2 ∧ (foldState.setNblk 2).pc.blk.toNat + 1 < (2 : BitVec 56).toNat) := by decide
theorem witness_FoldPastTheLastBlock : let s := foldState.setNblk 0
    s.hIs iv ∧ s.workIs ⟨0x42541B35, 0x5738D5E1, 0x21834873, 0x681E6DF6, 0xD8FDF6AD⟩ ∧ s.nblk = some 0 ∧
    (0 : BitVec 56).toNat < s.pc.blk.toNat + 1 := ⟨rfl, ⟨rfl, rfl, rfl, rfl, rfl⟩, rfl, by decide⟩
theorem witness_SerSerializesTheChainingState : (st.setH abcH).h = #v[some abcH.a, some abcH.b, some abcH.c, some abcH.d, some abcH.e] := rfl
theorem witness_HexRendersTheDigest : ∀ n, n < 20 → abcDone.digest.read n = some ((digestBytes abcH).getD n 0) := by decide
theorem witness_StartBeginsAHash : abcDone.busy = false ∧ (abcAt ⟨1, 0, 0⟩).busy = true := by decide
theorem witness_ClearDiscardsTheMessage : abcDone.busy = false ∧ (abcAt ⟨1, 0, 0⟩).busy = true := by decide
/-- The last byte that fits, FULL, and BUSY. -/
theorem witness_PushAppendsAByte : ((st.setLen 63).busy = false ∧ (st.setLen 63).len.toNat < (st.setLen 63).msgCap) ∧
    ((st.setLen 64).busy = false ∧ ((st.setLen 64).msgCap : Nat) ≤ (st.setLen 64).len.toNat) ∧ (abcAt ⟨1, 0, 0⟩).busy = true := by
  decide
theorem witness_WritesIgnoredWhileBusy : let s := (abcAt ⟨2, 0, 0⟩).setTurns [wr 0x10 0x64]
    s.busy = true ∧ 0x10 % 4 = 0 ∧ s.turns = .host (.write 0x10 .word 0x64) :: [] := by decide
/-- Reset meets every clause but the one about MSG, which needs a LEN above what was pushed. -/
theorem witness_InvalidOperandsStop : (∃ i : Fin 5, st.h[i] = none) ∧ st.a = none ∧
    (Instr.wf (.rndCh 0) = true ∧ st.w[0]? = some none) ∧ (Instr.wf (.exp 16) = true ∧ st.w[(16 : BitVec 7).toNat - 3]? = some none) ∧
    st.pl = none ∧ st.nblk = none ∧ (0 < (st.setLen 1).len.toNat ∧ (st.setLen 1).msg.read 0 = none) ∧
    (Instr.wf (.ldw 15) = true ∧ st.pbuf.read (64 * st.pc.blk.toNat + 4 * (15 : BitVec 7).toNat + 3) = none) ∧
    st.digest.read 19 = none := by decide
theorem witness_StepRunsTheDecodedMicroOperation : let s := (abcAt ⟨7, 0, 16⟩).setTurns [.core]
    s.busy = true ∧ decodeUop (s.pc.op ++ s.pc.j) = .ok (.exp 16) ∧ s.turns = [.core] ∧ (abcAt ⟨7, 0, 16⟩).turns = [] ∧
    decodeUop ((abcAt ⟨7, 0, 15⟩).pc.op ++ (abcAt ⟨7, 0, 15⟩).pc.j) = .error .indexOutOfRange := by decide
theorem witness_StepRunsTheHostCommand : (st.setTurns [wr 0x00 0x3]).turns = .host (.write 0x00 .word 0x3) :: [] ∧ 0x00 % 4 = 0 ∧
    decodeWrite 0x00 0x3 = .ok (.start true) ∧ decodeWrite 0x00 0x4 = .error .noCommandBit := by decide
theorem witness_RestingSequencerHasNoStep : st.busy = false ∧ st.turns = [] ∧ (st.setTurns [.core]).turns = [.core] := by decide
theorem witness_ResetFromAnyState : ((abcAt ⟨9, 0, 33⟩).setTurns [.host .reset, .core]).turns = .host .reset :: [.core] := by decide
theorem witness_StatusAndLengthReads : (abcDone.setTurns [rd 0x0C]).turns = .host (.read 0x0C .word) :: [] := by decide
theorem witness_ResultReadsWhenDone : abcDone.done = true ∧
    (4 < 5 ∧ (abcDone.setTurns [rd 0x30]).turns = .host (.read (0x20 + 4 * 4) .word) :: [] ∧ abcDone.digest.read 16 = some 0x9C ∧
      abcDone.digest.read 17 = some 0xD0 ∧ abcDone.digest.read 18 = some 0xD8 ∧ abcDone.digest.read 19 = some 0x9D) ∧
    (9 < 10 ∧ (abcDone.setTurns [rd 0x64]).turns = .host (.read (0x40 + 4 * 9) .word) :: [] ∧ abcDone.hexstr.read 36 = some 0x64 ∧
      abcDone.hexstr.read 37 = some 0x38 ∧ abcDone.hexstr.read 38 = some 0x39 ∧ abcDone.hexstr.read 39 = some 0x64) := by decide
theorem witness_ResultReadsBeforeDone : st.done = false ∧ (4 < 5 ∧ (st.setTurns [rd 0x30]).turns = .host (.read (0x20 + 4 * 4) .word) :: []) ∧
    (9 < 10 ∧ (st.setTurns [rd 0x64]).turns = .host (.read (0x40 + 4 * 9) .word) :: []) := by decide
theorem witness_ReservedOffsets : (∀ off ∈ [0x00, 0x10, 0x14, 0x1C, 0x34, 0x3C, 0x68], off % 4 = 0 ∧
      (st.setTurns [rd off]).turns = .host (.read off .word) :: []) ∧
    ((st.setTurns [wr 0x04 1]).turns = .host (.write 0x04 .word 1) :: [] ∧ 0x04 ≠ 0x00 ∧ 0x04 ≠ 0x10) := by decide
theorem witness_OddAccessesRefused : ((st.setTurns [.host (.read 0x04 .byte)]).turns = .host (.read 0x04 .byte) :: [] ∧ AccessSize.byte ≠ .word) ∧
    ((st.setTurns [.host (.write 0x02 .word 1)]).turns = .host (.write 0x02 .word 1) :: [] ∧ 0x02 % 4 ≠ 0) := by decide
theorem witness_HostCannotDisturbABusyCore : let s := (abcAt ⟨2, 0, 0⟩).setTurns [wr 0x00 0x3]
    s.busy = true ∧ s.done = false ∧ s.turns = .host (.write 0x00 .word 0x3) :: [] ∧
    turnLegal (.host (.write 0x00 .word 0x3)) = true ∧ turnIsReset (.host (.write 0x00 .word 0x3)) = false := by decide
theorem witness_WritersOfEachRegister : ∃ t, exec .init st = .next t ∧ t.h ≠ st.h := ⟨_, rfl, by decide⟩
theorem witness_NextPcTable :
    (foldState.busy = true ∧ foldState.turns = [] ∧ foldState.nblk = some 1 ∧ foldState.pc.blk.toNat + 1 ≤ (1 : BitVec 56).toNat ∧
      ∃ t, step foldState = .next t) ∧ st.pc = ⟨0x0, 0, 0⟩ ∧ (st.busy = false ∧ ∃ t, exec (.start false) st = .next t) :=
  ⟨⟨rfl, rfl, rfl, by decide, _, rfl⟩, rfl, rfl, _, rfl⟩

/-! ### States with the invariant -/

/-- "abc" accepted by START: the first micro-operation of its hash. -/
def started : State := abcAt ⟨1, 0, 0⟩

theorem started_inv : started.Inv where
  wf := ⟨by decide, by decide, by decide, by decide⟩
  bounds := by
    refine ⟨?_, ?_, ?_, ?_⟩ <;> unfold Memory.within
    · decide
    · intro x hx; cases hx
    · intro x hx; cases hx
    · intro x hx; cases hx
  message := ⟨by decide, by decide⟩
  rest := by decide
  result := fun h => by cases h
  phase := rfl

theorem abcH_digest : digestBytes abcH = digestOf abc := by decide +kernel

theorem abcDone_inv : abcDone.Inv where
  wf := ⟨by decide, List.Pairwise.nil, by decide, by decide⟩
  bounds := by
    refine ⟨?_, ?_, ?_, ?_⟩ <;> unfold Memory.within
    · decide
    · intro x hx; cases hx
    · decide
    · decide
  message := ⟨by decide, by decide⟩
  rest := by decide
  result := fun _ => ⟨rfl, abc, by decide, abcH_digest ▸ holds_writeList [] 0 _, test_hash_abc ▸ holds_writeList [] 0 _⟩
  phase := rfl

theorem witness_StepKeepsTheInvariant : started.Inv ∧ ∃ t, step started = .next t := ⟨started_inv, _, rfl⟩
theorem witness_InvariantStatesStepOn : ((abcDone.setTurns [rd 0x64]).Inv ∧ (abcDone.setTurns [rd 0x64]).turns = rd 0x64 :: [] ∧
    turnLegal (rd 0x64) = true) ∧ (started.Inv ∧ started.turns = [] ∧ started.busy = true) :=
  ⟨⟨inv_setTurns abcDone_inv _, rfl, rfl⟩, started_inv, rfl, rfl⟩
theorem witness_LegalStatusValues : (started.Inv ∧ started.busy = true) ∧ abcDone.Inv := ⟨⟨started_inv, rfl⟩, abcDone_inv⟩
theorem witness_ResultRegistersSpellTheHash : abcDone.done = true ∧ (4 < 5 ∧ abcDone.digest.holds 0 (digestOf abc)) ∧
    (9 < 10 ∧ abcDone.hexstr.holds 0 (hashOf abc)) :=
  ⟨rfl, ⟨by decide, abcH_digest ▸ holds_writeList [] 0 _⟩, by decide, test_hash_abc ▸ holds_writeList [] 0 _⟩
theorem witness_BlockRunIsCompress : let s := { (abcAt ⟨6, 0, 0⟩).setH iv with pbuf := Memory.writeList [] 0 abcBlock, nblk := some 1 }
    s.busy = true ∧ s.turns = [] ∧ s.pc.op = 0x6 ∧ s.pc.j = 0 ∧ s.hIs iv ∧ abcBlock.length = 64 ∧
    s.pbuf.holds (64 * s.pc.blk.toNat) abcBlock ∧ 64 * s.pc.blk.toNat + 64 ≤ pbufCap s.msgCap ∧ s.nblk = some 1 :=
  ⟨rfl, rfl, rfl, rfl, rfl, by decide, holds_writeList [] 0 abcBlock, by decide, rfl⟩
theorem witness_HashRunIsHash : started.Inv ∧ started.pc = ⟨0x1, 0, 0⟩ ∧ started.turns = [] ∧ started.message = abc :=
  ⟨started_inv, rfl, rfl, by decide⟩
theorem witness_SequencerRunsTheProgram : started.Inv ∧ started.pc = ⟨0x1, 0, 0⟩ ∧ started.turns = [] ∧
    1 = numBlocks started.message ∧ 169 < (hashProgram 1).length := ⟨started_inv, rfl, rfl, by decide, by decide +kernel⟩
theorem witness_HashMsgGivesTheHash : let s := abcDone.setTurns (hashMsgTurns [0x61])
    s.Inv ∧ s.busy = false ∧ [(0x61 : Byte)].length ≤ s.msgCap ∧ s.turns = hashMsgTurns [0x61] :=
  ⟨inv_setTurns abcDone_inv _, rfl, by decide, rfl⟩
theorem witness_HostInterleavingDoesNotMatter : let ts := [rd 0x04, wr 0x00 0x3, wr 0x10 0x64, rd 0x40] ++ List.replicate 169 .core
    let s := started.setTurns (ts ++ [.core])
    s.Inv ∧ s.pc = ⟨0x1, 0, 0⟩ ∧ s.turns = ts ++ [.core] ∧ (∀ u ∈ ts, turnLegal u = true ∧ turnIsReset u = false) ∧
    ts.count .core + 1 = 8 + 162 * numBlocks s.message :=
  ⟨inv_setTurns started_inv _, rfl, rfl, by decide +kernel, by decide +kernel⟩

end Sys2Proof.Tests
end

/-! # Stops on operands that hold no value (R8, U3)

A well-formed micro-operation is never refused, so where its next-state lemma rules out a next state it stops with a fault. -/

namespace Sys2Proof.Machine

section
variable {s t : State}

/-! ## A well-formed instruction is not refused -/

theorem withIdx_ne_refused {lo hi : Nat} {j : BitVec 7} {k : Host.Outcome State Fault Refusal} {r : Refusal}
    (hj : idxWithin lo hi j = true) (hk : k ≠ .refused r) : withIdx lo hi j k ≠ .refused r := by
  rwa [withIdx_eq (idxWithin_iff.1 hj)]

theorem roundStep_ne_refused (f : Word → Word → Word → Word) (k : Word) (j : BitVec 7) (s : State) (r : Refusal) :
    roundStep f k j s ≠ .refused r := by
  simp [roundStep, onOk_refused]

/-- R72, U6: an instruction that has an encoding is never refused. -/
theorem exec_ne_refused {i : Instr} (hwf : i.wf = true) (s : State) (r : Refusal) : exec i s ≠ .refused r := by
  cases i with
  | init => simp [exec, execInit]
  | pcpy => simp [exec, execPcpy, onOk_refused]
  | pmrk => simp [exec, execPmrk, onOk_refused]
  | pzer => simp [exec, execPzer, onOk_refused]
  | plen => simp [exec, execPlen, onOk_refused]
  | ldw j => exact withIdx_ne_refused hwf (by simp [onOk_refused])
  | exp j => exact withIdx_ne_refused hwf (by simp [onOk_refused])
  | seed => simp [exec, execSeed, onOk_refused]
  | rndCh j => exact withIdx_ne_refused hwf (roundStep_ne_refused ch k0 j s r)
  | rndPar1 j => exact withIdx_ne_refused hwf (roundStep_ne_refused par k1 j s r)
  | rndMaj j => exact withIdx_ne_refused hwf (roundStep_ne_refused maj k2 j s r)
  | rndPar2 j => exact withIdx_ne_refused hwf (roundStep_ne_refused par k3 j s r)
  | fold => simp [exec, execFold, onOk_refused]
  | ser => simp [exec, execSer, onOk_refused]
  | hex => simp [exec, execHex, onOk_refused]
  | fin => simp [exec, execFin]
  | start c => unfold exec execStart; split_ifs <;> simp
  | clear => unfold exec execClear; split_ifs <;> simp
  | push b => unfold exec execPush; split_ifs <;> simp

/-- Of the three outcomes a fault is what is left when there is neither a refusal nor a next state. -/
theorem stopsWithFault_of_no_next {i : Instr} (hwf : i.wf = true) (h : ∀ t, exec i s ≠ .next t) :
    stopsWithFault i s := by
  cases ho : exec i s with
  | next t => exact absurd ho (h t)
  | fault f => exact ⟨f, ho⟩
  | refused r => exact absurd ho (exec_ne_refused hwf s r)

/-! ## What a missing value rules out -/

theorem not_hIs_of_none {i : Fin 5} (hi : s.h[i] = none) (v : Words5) : ¬ s.hIs v := by
  intro hv
  rw [hv] at hi
  fin_cases i <;> simp at hi

theorem not_workIs_of_none (h : s.a = none ∨ s.b = none ∨ s.c = none ∨ s.d = none ∨ s.e = none) (v : Words5) :
    ¬ s.workIs v := by
  rintro ⟨ha, hb, hc, hd, he⟩
  simp [ha, hb, hc, hd, he] at h

theorem wAt_eq_none {n : Nat} (h : s.w[n]? = some none) : s.wAt n = none := by
  simp [State.wAt, h]

theorem not_holds_of_none {m : Memory} {n : Nat} {vs : List Byte} (hn : n < vs.length) (h : m.read n = none) :
    ¬ m.holds 0 vs := by
  intro hh
  have := hh n hn
  simp [h, hn] at this

/-! ## What each micro-operation needs -/

theorem seed_stops (h : ∀ v, ¬ s.hIs v) : stopsWithFault .seed s :=
  stopsWithFault_of_no_next rfl fun _ ht =>
    have ⟨v, hv, _⟩ := execSeed_next.1 ht
    h v hv

theorem ser_stops (h : ∀ v, ¬ s.hIs v) : stopsWithFault .ser s :=
  stopsWithFault_of_no_next rfl fun _ ht =>
    have ⟨v, hv, _⟩ := execSer_next.1 ht
    h v hv

theorem fold_stops (h : (∀ v, ¬ s.hIs v) ∨ (∀ v, ¬ s.workIs v) ∨ s.nblk = none) : stopsWithFault .fold s := by
  refine stopsWithFault_of_no_next rfl fun _ ht => ?_
  obtain ⟨x, v, n, hx, hv, hn, -⟩ := execFold_next.1 ht
  rcases h with h | h | h
  · exact h x hx
  · exact h v hv
  · simp [h] at hn

/-- Whichever of the four RND forms goes on to a next state has read A to E and W[j]. -/
theorem rnd_next_reads {i : Instr} {j : BitVec 7} (hi : i = .rndCh j ∨ i = .rndPar1 j ∨ i = .rndMaj j ∨ i = .rndPar2 j)
    (ht : exec i s = .next t) : ∃ v w, s.workIs v ∧ s.wAt j.toNat = some w := by
  have reads : ∀ {f k}, roundStep f k j s = .next t → ∃ v w, s.workIs v ∧ s.wAt j.toNat = some w := fun h =>
    have ⟨v, w, hv, hw, _⟩ := roundStep_next.1 h
    ⟨v, w, hv, hw⟩
  rcases hi with rfl | rfl | rfl | rfl
  · exact reads (execRndCh_next.1 ht).2
  · exact reads (execRndPar1_next.1 ht).2
  · exact reads (execRndMaj_next.1 ht).2
  · exact reads (execRndPar2_next.1 ht).2

theorem rnd_stops {i : Instr} {j : BitVec 7} (hwf : i.wf = true)
    (hi : i = .rndCh j ∨ i = .rndPar1 j ∨ i = .rndMaj j ∨ i = .rndPar2 j)
    (h : (∀ v, ¬ s.workIs v) ∨ s.wAt j.toNat = none) : stopsWithFault i s := by
  refine stopsWithFault_of_no_next hwf fun _ ht => ?_
  obtain ⟨v, w, hv, hw⟩ := rnd_next_reads hi ht
  rcases h with h | h
  · exact h v hv
  · simp [h] at hw

theorem exp_stops {j : BitVec 7} {k : Nat} (hwf : Instr.wf (.exp j) = true) (hk : k = 3 ∨ k = 8 ∨ k = 14 ∨ k = 16)
    (h : s.wAt (j.toNat - k) = none) : stopsWithFault (.exp j) s := by
  refine stopsWithFault_of_no_next hwf fun _ ht => ?_
  obtain ⟨-, w3, w8, w14, w16, h3, h8, h14, h16, -⟩ := execExp_next.1 ht
  rcases hk with rfl | rfl | rfl | rfl
  · simp [h] at h3
  · simp [h] at h8
  · simp [h] at h14
  · simp [h] at h16

theorem padding_stops (h : s.pl = none) : stopsWithFault .pmrk s ∧ stopsWithFault .pzer s ∧ stopsWithFault .plen s := by
  have no_pl : ∀ {P : BitVec 62 → Prop}, ¬ ∃ pl, s.pl = some pl ∧ P pl := by simp [h]
  exact ⟨stopsWithFault_of_no_next rfl fun _ ht => no_pl (execPmrk_next.1 ht),
    stopsWithFault_of_no_next rfl fun _ ht => no_pl (execPzer_next.1 ht),
    stopsWithFault_of_no_next rfl fun _ ht => no_pl (execPlen_next.1 ht)⟩

theorem pcpy_stops {n : Nat} (hn : n < s.len.toNat) (h : s.msg.read n = none) : stopsWithFault .pcpy s := by
  refine stopsWithFault_of_no_next rfl fun _ ht => ?_
  obtain ⟨vs, hl, -, hh, -⟩ := execPcpy_next.1 ht
  exact not_holds_of_none (hl ▸ hn) h hh

theorem ldw_stops {j : BitVec 7} {k : Nat} (hwf : Instr.wf (.ldw j) = true) (hk : k < 4)
    (h : s.pbuf.read (ldwAddr s.pc.blk j + k) = none) : stopsWithFault (.ldw j) s := by
  refine stopsWithFault_of_no_next hwf fun _ ht => ?_
  obtain ⟨-, v, hv, -⟩ := execLdw_next.1 ht
  obtain ⟨-, s0, s1, s2, s3, h0, h1, h2, h3, -⟩ := load32_ok.1 hv
  match k, hk with
  | 0, _ => simp [h0] at h
  | 1, _ => simp [h1] at h
  | 2, _ => simp [h2] at h
  | 3, _ => simp [h3] at h

theorem hex_stops {n : Nat} (hn : n < 20) (h : s.digest.read n = none) : stopsWithFault .hex s := by
  refine stopsWithFault_of_no_next rfl fun _ ht => ?_
  obtain ⟨xs, hl, hh, -⟩ := execHex_next.1 ht
  exact not_holds_of_none (hl ▸ hn) h hh

end

/-- Settles O34, a lemma for each micro-operation: without the value it needs it has no next state, and it is not refused. -/
theorem invalidOperandsStop : Obligations.InvalidOperandsStop := by
  unfold Obligations.InvalidOperandsStop
  intro s
  refine ⟨?h, ?work, ?w, ?taps, padding_stops, ?nblk, ?msg, ?pbuf, ?digest⟩
  case h =>
    rintro ⟨i, hi⟩
    have hH := not_hIs_of_none hi
    exact ⟨seed_stops hH, fold_stops (.inl hH), ser_stops hH⟩
  case work =>
    intro h
    have hWork := not_workIs_of_none h
    exact ⟨fold_stops (.inr (.inl hWork)), fun i j hwf hi => rnd_stops hwf hi (.inl hWork)⟩
  case w => exact fun i j hwf hi hw => rnd_stops hwf hi (.inr (wAt_eq_none hw))
  case taps => exact fun j k hwf hk hw => exp_stops hwf hk (wAt_eq_none hw)
  case nblk => exact fun h => fold_stops (.inr (.inr h))
  case msg => exact fun n hn h => pcpy_stops hn h
  case pbuf => exact fun j k hwf hk h => ldw_stops hwf hk h
  case digest => exact fun n hn h => hex_stops hn h

end Sys2Proof.Machine

/-! # Reads of the host (R20 to R26, R181)

A read is one step that leaves its value in the host's read data: for a plain register a value computed from the state, for a
result register while DONE = 1 four bytes of its memory. -/

namespace Sys2Proof.Machine

/-! ## A big-endian word and its four bytes (R94, R96) -/

@[simp] theorem unbe32_be32 (s0 s1 s2 s3 : Byte) : unbe32 (be32 s0 s1 s2 s3) = [s0, s1, s2, s3] := by
  simp only [unbe32, List.cons.injEq, and_true]
  refine ⟨?_, ?_, ?_, ?_⟩ <;> ext i hi <;> grind [be32]

theorem be32_bytes (v : Word) :
    be32 (v.extractLsb' 24 8) (v.extractLsb' 16 8) (v.extractLsb' 8 8) (v.extractLsb' 0 8) = v := by
  unfold be32
  rw [BitVec.extractLsb'_append_extractLsb'_eq_extractLsb' (by decide),
    BitVec.extractLsb'_append_extractLsb'_eq_extractLsb' (by decide),
    BitVec.extractLsb'_append_extractLsb'_eq_extractLsb' (by decide), BitVec.extractLsb'_eq_self]

/-- Every four bytes are the bytes of a word. -/
theorem exists_unbe32 {vs : List Byte} (h : vs.length = 4) : ∃ v, unbe32 v = vs := by
  match vs, h with
  | [s0, s1, s2, s3], _ => exact ⟨be32 s0 s1 s2 s3, unbe32_be32 s0 s1 s2 s3⟩

/-- Byte i of a word stands in bits 31 - 8i down to 24 - 8i. -/
theorem unbe32_getElem? (v : Word) {i : Nat} (h : i < 4) : (unbe32 v)[i]? = some (v.extractLsb' (24 - 8 * i) 8) := by
  match i, h with
  | 0, _ | 1, _ | 2, _ | 3, _ => rfl

/-- A 32-bit load answers the word whose four bytes stand at the address. -/
theorem load32_of_holds {sp : Space} {cap : Nat} {m : Memory} {a : Nat} {v : Word} (hc : a + 4 ≤ cap)
    (h : m.holds a (unbe32 v)) : load32 sp cap m a = .ok v :=
  have byte (i : Nat) (hi : i < 4) : m.read (a + i) = (unbe32 v)[i]? := h i hi
  load32_ok.2 ⟨hc, _, _, _, _, byte 0 (by decide), byte 1 (by decide), byte 2 (by decide), byte 3 (by decide),
    (be32_bytes v).symm⟩

/-- Where a memory holds a sequence it holds each piece of it. -/
theorem holds_slice {m : Memory} {a : Nat} {vs : List Byte} (h : m.holds a vs) (n l : Nat) :
    m.holds (a + n) ((vs.drop n).take l) := by
  intro i hi
  rw [List.length_take, List.length_drop] at hi
  rw [List.getElem?_take_of_lt (by omega), List.getElem?_drop, Nat.add_assoc]
  exact h (n + i) (by omega)

/-- R150: bytes 4k to 4k+3 of a digest are word k of the chaining value. -/
theorem digestBytes_slice (v : Words5) {k : Nat} (h : k < 5) :
    ((digestBytes v).drop (4 * k)).take 4 = unbe32 (v.toList.getD k 0) := by
  match k, h with
  | 0, _ | 1, _ | 2, _ | 3, _ | 4, _ => rfl

/-! ## A read as a step -/

section
variable {s : State} {off : Nat} {ts : List Turn} {v : Word}

/-- An aligned 32-bit read on the host's turn. -/
theorem step_read (ha : off % 4 = 0) (ht : s.turns = .host (.read off .word) :: ts) :
    step s = hostRead off (s.setTurns ts) := by
  rw [step_host ht, hostStep_read (legalAccess_word ha)]

/-- A read of a register that is no result register answers its value in the state. -/
theorem step_read_plain (ha : off % 4 = 0) (ht : s.turns = .host (.read off .word) :: ts) (hr : resultReg off = none) :
    step s = .next ((s.setTurns ts).setRdata (plainReg s off)) := by
  rw [step_read ha ht, hostRead_plain hr]
  rfl

/-- While DONE = 1 a read of a result register answers the word its memory holds. -/
theorem step_read_result {r : Space × Nat} (ha : off % 4 = 0) (ht : s.turns = .host (.read off .word) :: ts)
    (hr : resultReg off = some r) (hd : s.done = true) (hv : loadResult s r = .ok v) :
    step s = .next ((s.setTurns ts).setRdata v) := by
  have hv' : loadResult (s.setTurns ts) r = .ok v := hv
  rw [step_read ha ht, hostRead_result (s := s.setTurns ts) hr hd, hv', onOk_ok]

/-- R23: DIGESTk shows the word at 4k of DIGEST. -/
theorem step_read_digest {k : Nat} (hd : s.done = true) (hk : k < 5)
    (ht : s.turns = .host (.read (0x20 + 4 * k) .word) :: ts) (hv : load32 .digest 20 s.digest (4 * k) = .ok v) :
    step s = .next ((s.setTurns ts).setRdata v) :=
  step_read_result (by omega) ht (resultReg_digest hk) hd hv

/-- R24: HEXk shows the word at 4k of HEXSTR. -/
theorem step_read_hexstr {k : Nat} (hd : s.done = true) (hk : k < 10)
    (ht : s.turns = .host (.read (0x40 + 4 * k) .word) :: ts) (hv : load32 .hexstr 40 s.hexstr (4 * k) = .ok v) :
    step s = .next ((s.setTurns ts).setRdata v) :=
  step_read_result (by omega) ht (resultReg_hexstr hk) hd hv

end

/-- Settles O43: the four bytes at 4k are word k of the chaining value in DIGEST, and four of the forty characters in HEXSTR. -/
theorem resultRegistersSpellTheHash : Obligations.ResultRegistersSpellTheHash := by
  unfold Obligations.ResultRegistersSpellTheHash
  intro s m k ts hd
  constructor
  · intro hk hm ht
    refine step_read_digest hd hk ht (load32_of_holds (by omega) ?_)
    have hslice := holds_slice hm (4 * k) 4
    rwa [digestOf, digestBytes_slice _ hk, Nat.zero_add] at hslice
  · intro hk hm ht
    have hlen : (((hashOf m).drop (4 * k)).take 4).length = 4 := by simp [hashOf_length]; omega
    obtain ⟨v, hv⟩ := exists_unbe32 hlen
    have hslice := holds_slice hm (4 * k) 4
    rw [← hv, Nat.zero_add] at hslice
    refine ⟨v, step_read_hexstr hd hk ht (load32_of_holds (by omega) hslice), fun i hi => ?_⟩
    rw [← unbe32_getElem? v hi, hv, List.getElem?_take_of_lt hi, List.getElem?_drop]

/-- Settles O42: a 32-bit load packs the four bytes big-endian. -/
theorem resultReadsWhenDone : Obligations.ResultReadsWhenDone := by
  unfold Obligations.ResultReadsWhenDone
  intro s k ts s0 s1 s2 s3 hd
  constructor
  · intro hk ht h0 h1 h2 h3
    exact step_read_digest hd hk ht (load32_ok.2 ⟨by omega, s0, s1, s2, s3, h0, h1, h2, h3, rfl⟩)
  · intro hk ht h0 h1 h2 h3
    exact step_read_hexstr hd hk ht (load32_ok.2 ⟨by omega, s0, s1, s2, s3, h0, h1, h2, h3, rfl⟩)

/-! ## Plain and reserved registers -/

/-- R25: the offsets that are no result register. -/
theorem resultReg_eq_none {off : Nat} (h : off < 0x20 ∨ (0x30 < off ∧ off < 0x40) ∨ 0x64 < off) :
    resultReg off = none := by
  unfold resultReg
  rw [if_neg (by omega), if_neg (by omega)]

theorem plainReg_eq_zero {off : Nat} (h : off ≠ 0x04 ∧ off ≠ 0x08 ∧ off ≠ 0x0C) (s : State) :
    plainReg s off = 0 := by
  obtain ⟨hStatus, hLo, hHi⟩ := h
  unfold plainReg
  rw [if_neg hStatus, if_neg hLo, if_neg hHi]

theorem full_iff (s : State) : s.full = true ↔ s.len.toNat = s.msgCap := by
  simp [State.full]

/-- R21: LEN_LO is LEN mod 2^32. -/
theorem lenLo_eq (len : BitVec 61) : len.extractLsb' 0 32 = BitVec.ofNat 32 (len.toNat % 2 ^ 32) := by
  apply BitVec.eq_of_toNat_eq
  simp

/-- R21: LEN_HI is LEN div 2^32, which fits in 29 bits. -/
theorem lenHi_eq (len : BitVec 61) : (len.extractLsb' 32 29).setWidth 32 = BitVec.ofNat 32 (len.toNat / 2 ^ 32) := by
  apply BitVec.eq_of_toNat_eq
  have := len.isLt
  simp only [BitVec.toNat_setWidth, BitVec.extractLsb'_toNat, BitVec.toNat_ofNat, Nat.shiftRight_eq_div_pow]
  omega

/-- Settles O41: each of the three registers is a plain one. -/
theorem statusAndLengthReads : Obligations.StatusAndLengthReads := by
  unfold Obligations.StatusAndLengthReads
  intro s off ts ht
  refine ⟨?status, ?lo, ?hi⟩
  case status =>
    rintro rfl
    refine ⟨statusWord s, step_read_plain rfl ht rfl, statusWord_bit s 0, statusWord_bit s 1, ?_, fun i hi => ?_⟩
    · rw [statusWord_bit, ← full_iff]
      rfl
    · rw [statusWord_bit, if_neg (by omega), if_neg (by omega), if_neg (by omega)]
  case lo =>
    rintro rfl
    rw [← lenLo_eq]
    exact step_read_plain rfl ht rfl
  case hi =>
    rintro rfl
    rw [← lenHi_eq]
    exact step_read_plain rfl ht rfl

/-- R182: a write to an offset other than CTRL and MSG_PUSH carries no command. -/
theorem decodeWrite_no_command {off : Nat} (hc : off ≠ ctrlOff) (hp : off ≠ msgPushOff) (v : Word) :
    decodeWrite off v = .error .noCommandRegister := by
  unfold decodeWrite
  rw [if_neg hc, if_neg hp]

/-- Settles O45: the offsets are neither result registers nor STATUS or LEN, and only CTRL and MSG_PUSH carry commands. -/
theorem reservedOffsets : Obligations.ReservedOffsets := by
  unfold Obligations.ReservedOffsets
  intro s off v ts ha
  constructor
  · intro ht hoff
    rw [step_read_plain ha ht (resultReg_eq_none (by omega)), plainReg_eq_zero ⟨by omega, by omega, by omega⟩]
    rfl
  · intro ht hc hp
    rw [step_host ht, hostStep_write (legalAccess_word ha), hostWrite_error (decodeWrite_no_command hc hp v)]
    rfl

/-! ## Odd accesses (R26) -/

theorem legalAccess_eq_false {off : Nat} {size : AccessSize} (h : size ≠ .word ∨ off % 4 ≠ 0) :
    legalAccess off size = false := by
  simpa [legalAccess, imp_iff_not_or] using h

theorem hostStep_read_refused {off : Nat} {size : AccessSize} (h : legalAccess off size = false) (s : State) :
    hostStep (.read off size) s = .refused .hostAccess := by
  simp [hostStep, h]

theorem hostStep_write_refused {off : Nat} {size : AccessSize} (h : legalAccess off size = false) (v : Word) (s : State) :
    hostStep (.write off size v) s = .refused .hostAccess := by
  simp [hostStep, h]

/-- Settles O46: the host's step tests the access before anything else. -/
theorem oddAccessesRefused : Obligations.OddAccessesRefused := by
  unfold Obligations.OddAccessesRefused
  intro s off size v ts ht hodd
  have hillegal := legalAccess_eq_false hodd
  rcases ht with ht | ht
  · rw [step_host ht, hostStep_read_refused hillegal]
  · rw [step_host ht, hostStep_write_refused hillegal]

/-! # Which instructions write which state -/

/-- What the four RND micro-operations share: TEMP, A to E and the pc are written. -/
theorem exec_rnd_next {i : Instr} {j : BitVec 7} {s t : State}
    (hi : i = .rndCh j ∨ i = .rndPar1 j ∨ i = .rndMaj j ∨ i = .rndPar2 j) (h : exec i s = .next t) :
    ∃ x v p, t = ((s.setTemp x).setWork v).setPc p := by
  have writes : ∀ {f k}, roundStep f k j s = .next t → ∃ x v p, t = ((s.setTemp x).setWork v).setPc p := fun hr =>
    have ⟨_, _, _, _, ht⟩ := roundStep_next.1 hr
    ⟨_, _, _, ht⟩
  rcases hi with rfl | rfl | rfl | rfl
  · exact writes (execRndCh_next.1 h).2
  · exact writes (execRndPar1_next.1 h).2
  · exact writes (execRndMaj_next.1 h).2
  · exact writes (execRndPar2_next.1 h).2

/-- Settles O48, instruction by instruction: the next state as the updates that make it. -/
theorem writersOfEachRegister : Obligations.WritersOfEachRegister := by
  unfold Obligations.WritersOfEachRegister
  intro i s t h
  cases i with
  | init => obtain rfl := execInit_next.1 h; simp
  | pcpy => obtain ⟨vs, -, -, -, -, rfl⟩ := execPcpy_next.1 h; simp
  | pmrk => obtain ⟨pl, -, -, rfl⟩ := execPmrk_next.1 h; simp
  | pzer => obtain ⟨pl, -, -, rfl⟩ := execPzer_next.1 h; simp
  | plen => obtain ⟨pl, -, -, rfl⟩ := execPlen_next.1 h; simp
  | ldw j => obtain ⟨-, v, -, rfl⟩ := execLdw_next.1 h; simp
  | exp j => obtain ⟨-, w3, w8, w14, w16, -, -, -, -, rfl⟩ := execExp_next.1 h; simp
  | seed => obtain ⟨v, -, rfl⟩ := execSeed_next.1 h; simp
  | rndCh j | rndPar1 j | rndMaj j | rndPar2 j => obtain ⟨x, v, p, rfl⟩ := exec_rnd_next (j := j) (by simp) h; simp
  | fold => obtain ⟨x, v, n, -, -, -, rfl⟩ := execFold_next.1 h; simp
  | ser => obtain ⟨v, -, rfl⟩ := execSer_next.1 h; simp
  | hex => obtain ⟨xs, -, -, rfl⟩ := execHex_next.1 h; simp
  | fin => obtain rfl := execFin_next.1 h; simp [endHash]
  | start c =>
    obtain rfl := execStart_next.1 h
    by_cases hb : s.busy <;> cases c <;> simp [hb, beginHash, clearMessage]
  | clear =>
    obtain rfl := execClear_next.1 h
    by_cases hb : s.busy <;> simp [hb, clearMessage]
  | push b =>
    obtain rfl := execPush_next.1 h
    by_cases hp : s.busy = false ∧ s.len.toNat < s.msgCap
    · simp [if_pos hp]
    · simp [if_neg hp]

/-! # The step of the sequencer, the reset state and STATUS -/

/-- Settles O36: the word the sequencer fetches is `op ++ j`. -/
theorem stepRunsTheDecodedMicroOperation : Obligations.StepRunsTheDecodedMicroOperation := by
  unfold Obligations.StepRunsTheDecodedMicroOperation
  intro s ts hb
  have hnil : s.turns = [] → step s = runUop s := fun ht => by rw [step_nil ht, if_pos hb]
  have hcore : s.turns = .core :: ts → step s = runUop (s.setTurns ts) := fun ht => by rw [step_core ht, if_pos hb]
  constructor
  · intro i hi
    exact ⟨fun ht => (hnil ht).trans (runUop_ok hi), fun ht => (hcore ht).trans (runUop_ok hi)⟩
  · rintro f hf (ht | ht)
    · exact (hnil ht).trans (runUop_error hf)
    · exact (hcore ht).trans (runUop_error hf)

/-- Settles O40: every field is what `State.resetWith` gives it; FULL is computed from LEN = 0. -/
theorem resetStateValues : Obligations.ResetStateValues := by
  unfold Obligations.ResetStateValues
  intro cap s
  have hfull : s.full = true ↔ cap.val = 0 := (full_iff s).trans eq_comm
  have hh : ∀ i : Fin 5, s.h[i] = none := fun i => Vector.getElem_replicate i.isLt
  have hw : ∀ i : Fin 80, s.w[i] = none := fun i => Vector.getElem_replicate i.isLt
  exact ⟨rfl, rfl, rfl, rfl, rfl, hfull, hh, rfl, rfl, rfl, rfl, rfl, rfl, hw, rfl, rfl,
    fun _ => rfl, fun _ => rfl, fun _ => rfl, fun _ => rfl⟩

theorem within_nil (cap : Nat) : Memory.within [] cap := List.forall_mem_nil _

/-- Settles O50: the memories are empty, there is no message, and the core rests with DONE = 0. -/
theorem invariantAtReset : Obligations.InvariantAtReset := by
  unfold Obligations.InvariantAtReset
  exact fun cap => {
    wf := ⟨.nil, .nil, .nil, .nil⟩
    bounds := ⟨within_nil _, within_nil _, within_nil _, within_nil _⟩
    message := ⟨Nat.zero_le _, fun i hi => absurd hi (Nat.not_lt_zero i)⟩
    rest := ⟨fun _ => rfl, fun _ => rfl⟩
    result := Bool.false_ne_true.elim
    phase := rfl }

/-- Settles O53: DONE = 1 only in a resting core, so STATUS has bits 0 and 1 never both set. -/
theorem legalStatusValues : Obligations.LegalStatusValues := by
  unfold Obligations.LegalStatusValues
  intro s hinv
  have hexcl : s.busy = true → s.done = false := by
    intro hb
    by_contra hd
    obtain ⟨hrest, -⟩ := hinv.result (by simpa using hd)
    simp [hb] at hrest
  refine ⟨?_, hexcl, hinv.rest.symm⟩
  rw [statusWord_toNat]
  cases hb : s.busy with
  | false => cases s.done <;> cases s.full <;> decide
  | true => rw [hexcl hb]; cases s.full <;> decide

end Sys2Proof.Machine

namespace Sys2Proof.Machine

/-! # The host beside a busy core (R54, R187) -/

/-- While BUSY = 1 and DONE = 0 a legal action of the host other than reset moves its own side alone: a read answers a plain
register or a free value, a write is ignored. -/
theorem hostStep_busy {s : State} {a : HostAction} (hb : s.busy = true) (hd : s.done = false)
    (hlegal : turnLegal (.host a) = true) (hreset : turnIsReset (.host a) = false) :
    ∃ (r : Option Word) (n : Nat), hostStep a s = .next { s with rdata := r, freeIdx := n } := by
  cases a with
  | reset => simp [turnIsReset] at hreset
  | read off size =>
    rw [hostStep_read hlegal]
    cases hr : resultReg off with
    | none => exact ⟨_, _, hostRead_plain hr s⟩
    | some r => exact ⟨_, _, hostRead_free hr hd⟩
  | write off size v =>
    rw [hostStep_write hlegal]
    cases hw : decodeWrite off v with
    | ok i => exact ⟨_, _, (hostWrite_ok hw s).trans (exec_command_busy hw hb)⟩
    | error f => exact ⟨_, _, hostWrite_error hw s⟩

/-- Settles O47: the turn is used up, and then the host's step moves its own side alone. -/
theorem hostCannotDisturbABusyCore : Obligations.HostCannotDisturbABusyCore := by
  unfold Obligations.HostCannotDisturbABusyCore
  intro s a ts hb hd ht hlegal hreset
  rw [step_host ht]
  exact hostStep_busy (s := s.setTurns ts) hb hd hlegal hreset

end Sys2Proof.Machine

/-! # One micro-operation keeps the invariant (R162, R166, R236)

From a state with the invariant and BUSY = 1, each micro-operation before FIN goes on to a next state: one lemma for each row
of R162 says that the values the invariant lists at the next pc have been computed. -/

namespace Sys2Proof.Machine

/-! ## The memories stay canonical and within bounds -/

section
variable {s t : State} {a : Nat} {vs : List Byte}

/-- What the invariant says of the four memories alone: canonical form, and nothing outside the bounds (R57). -/
def State.memoriesOk (s : State) : Prop :=
  (s.msg.wf ∧ s.pbuf.wf ∧ s.digest.wf ∧ s.hexstr.wf) ∧
  s.msg.within s.msgCap ∧ s.pbuf.within (pbufCap s.msgCap) ∧ s.digest.within 20 ∧ s.hexstr.within 40

theorem memoriesOk_writeMsg (h : s.memoriesOk) (ha : a < s.msgCap) (v : Byte) :
    (s.setMsg (s.msg.write a v)).memoriesOk := by
  obtain ⟨⟨hm, hwf⟩, hmsg, hrest⟩ := h
  exact ⟨⟨write_wf hm a v, hwf⟩, write_within hmsg ha, hrest⟩

theorem memoriesOk_writePbuf (h : s.memoriesOk) (hv : vs = [] ∨ a + vs.length ≤ pbufCap s.msgCap) :
    (s.setPbuf (s.pbuf.writeList a vs)).memoriesOk := by
  obtain ⟨⟨hm, hp, hwf⟩, hmsg, hpbuf, hrest⟩ := h
  exact ⟨⟨hm, writeList_wf vs hp a, hwf⟩, hmsg, writeList_within vs hpbuf hv, hrest⟩

theorem memoriesOk_writeDigest (h : s.memoriesOk) (hv : vs.length ≤ 20) :
    (s.setDigest (s.digest.writeList 0 vs)).memoriesOk := by
  obtain ⟨⟨hm, hp, hd, hx⟩, hmsg, hpbuf, hdigest, hhex⟩ := h
  exact ⟨⟨hm, hp, writeList_wf vs hd 0, hx⟩, hmsg, hpbuf, writeList_within vs hdigest (.inr (by omega)), hhex⟩

theorem memoriesOk_writeHexstr (h : s.memoriesOk) (hv : vs.length ≤ 40) :
    (s.setHexstr (s.hexstr.writeList 0 vs)).memoriesOk := by
  obtain ⟨⟨hm, hp, hd, hx⟩, hmsg, hpbuf, hdigest, hhex⟩ := h
  exact ⟨⟨hm, hp, hd, writeList_wf vs hx 0⟩, hmsg, hpbuf, hdigest, writeList_within vs hhex (.inr (by omega))⟩

theorem memoriesOk_setPc (h : s.memoriesOk) (p : PC) : (s.setPc p).memoriesOk := h

theorem memoriesOk_setPl (h : s.memoriesOk) (p : BitVec 62) : (s.setPl p).memoriesOk := h

theorem memoriesOk_setNblk (h : s.memoriesOk) (n : BitVec 56) : (s.setNblk n).memoriesOk := h

/-- No instruction stores outside a memory. -/
theorem exec_keeps_memories {i : Instr} (h : s.memoriesOk) (ht : exec i s = .next t) : t.memoriesOk := by
  cases i with
  | init => obtain rfl := execInit_next.1 ht; exact h
  | pcpy =>
    obtain ⟨vs, -, -, -, hc, rfl⟩ := execPcpy_next.1 ht
    exact memoriesOk_setPc (memoriesOk_setPl (memoriesOk_writePbuf h (by simpa using hc)) _) _
  | pmrk =>
    obtain ⟨pl, -, hc, rfl⟩ := execPmrk_next.1 ht
    exact memoriesOk_setPc (memoriesOk_setPl (memoriesOk_writePbuf h (.inr hc)) _) _
  | pzer =>
    obtain ⟨pl, -, hc, rfl⟩ := execPzer_next.1 ht
    exact memoriesOk_setPc (memoriesOk_setPl (memoriesOk_writePbuf h (by simpa using hc)) _) _
  | plen =>
    obtain ⟨pl, -, hc, rfl⟩ := execPlen_next.1 ht
    exact memoriesOk_setPc (memoriesOk_setNblk (memoriesOk_setPl (memoriesOk_writePbuf h (.inr hc)) _) _) _
  | ldw j => obtain ⟨-, v, -, rfl⟩ := execLdw_next.1 ht; exact h
  | exp j => obtain ⟨-, w3, w8, w14, w16, -, -, -, -, rfl⟩ := execExp_next.1 ht; exact h
  | seed => obtain ⟨v, -, rfl⟩ := execSeed_next.1 ht; exact h
  | rndCh j | rndPar1 j | rndMaj j | rndPar2 j =>
    obtain ⟨x, v, p, rfl⟩ := exec_rnd_next (j := j) (by simp) ht
    exact h
  | fold => obtain ⟨x, v, n, -, -, -, rfl⟩ := execFold_next.1 ht; exact h
  | ser =>
    obtain ⟨v, -, rfl⟩ := execSer_next.1 ht
    exact memoriesOk_setPc (memoriesOk_writeDigest h (digestBytes_length v).le) _
  | hex =>
    obtain ⟨xs, hl, -, rfl⟩ := execHex_next.1 ht
    exact memoriesOk_setPc (memoriesOk_writeHexstr h (by rw [hexBytes_length, hl])) _
  | fin => obtain rfl := execFin_next.1 ht; exact h
  | start c => obtain rfl := execStart_next.1 ht; split_ifs <;> exact h
  | clear => obtain rfl := execClear_next.1 ht; split_ifs <;> exact h
  | push b =>
    obtain rfl := execPush_next.1 ht
    split_ifs with hp
    · exact memoriesOk_writeMsg h hp.2 b
    · exact h

theorem runUop_keeps_memories (h : s.memoriesOk) (ht : runUop s = .next t) : t.memoriesOk := by
  cases hd : decodeUop (fetchWord s) with
  | ok i => rw [runUop_ok hd] at ht; exact exec_keeps_memories h ht
  | error f => rw [runUop_error hd] at ht; cases ht

end

/-! ## The padded message fits (R113) -/

theorem pad_length_eq_blocks (m : List Byte) : (pad m).length = 64 * numBlocks m := by
  obtain ⟨-, hz⟩ := zcount_mod m.length
  rw [numBlocks, pad_length]
  omega

theorem numBlocks_eq (m : List Byte) : numBlocks m = (m.length + 8) / 64 + 1 := by
  obtain ⟨hlt, hz⟩ := zcount_mod m.length
  rw [numBlocks, pad_length]
  omega

theorem pad_length_le_cap {m : List Byte} {cap : Nat} (h : m.length ≤ cap) : (pad m).length ≤ pbufCap cap := by
  rw [pad_length_eq_blocks, numBlocks_eq, pbufCap]
  omega

section
variable {s : State} {n : Nat} {vs : List Byte}

theorem message_length_le (h : s.Inv) : s.message.length ≤ s.msgCap :=
  (message_bytes h.message.2).1.trans_le h.message.1

theorem pad_message_le (h : s.Inv) : (pad s.message).length ≤ pbufCap s.msgCap := pad_length_le_cap (message_length_le h)

theorem pad_message_lt (h : s.Inv) : (pad s.message).length < 2 ^ 62 := by
  have := pad_message_le h
  have := pbufCap_bounds s.msgCap
  omega

/-- NBLK never wraps. -/
theorem numBlocks_lt (h : s.Inv) : numBlocks s.message < 2 ^ 56 := by
  have := pad_message_lt h
  rw [pad_length_eq_blocks] at this
  omega

theorem pl_toNat (h : s.Inv) (hn : n ≤ (pad s.message).length) : (BitVec.ofNat 62 n).toNat = n := by
  have := pad_message_lt h
  rw [BitVec.toNat_ofNat]
  omega

/-- Appending the next bytes of the padded message at PL (R30). -/
theorem paddedTo_append (h : s.Inv) (hp : s.paddedTo n) (hn : n ≤ (pad s.message).length)
    (hv : (pad s.message).take (n + vs.length) = (pad s.message).take n ++ vs) :
    ((s.setPbuf (s.pbuf.writeList (BitVec.ofNat 62 n).toNat vs)).setPl
      (BitVec.ofNat 62 n + BitVec.ofNat 62 vs.length)).paddedTo (n + vs.length) := by
  obtain ⟨-, hholds⟩ := hp
  have happend := holds_append_writeList hholds vs
  rw [List.length_take_of_le hn, Nat.zero_add, ← hv] at happend
  rw [pl_toNat h hn]
  exact ⟨congrArg some (BitVec.ofNat_add ..).symm, happend⟩

end

/-! ## The invariant's phases and the pc -/

section
variable {s : State}

theorem atOp_pcpy (hop : s.pc.op = Op.pcpy) : s.atOp ↔ s.pc = ⟨Op.pcpy, 0, 0⟩ ∧ s.hIs iv := by
  unfold State.atOp; rw [hop]; rfl

theorem atOp_pmrk (hop : s.pc.op = Op.pmrk) :
    s.atOp ↔ s.pc = ⟨Op.pmrk, 0, 0⟩ ∧ s.hIs iv ∧ s.paddedTo s.message.length := by
  unfold State.atOp; rw [hop]; rfl

theorem atOp_pzer (hop : s.pc.op = Op.pzer) :
    s.atOp ↔ s.pc = ⟨Op.pzer, 0, 0⟩ ∧ s.hIs iv ∧ s.paddedTo (s.message.length + 1) := by
  unfold State.atOp; rw [hop]; rfl

theorem atOp_plen (hop : s.pc.op = Op.plen) : s.atOp ↔
    s.pc = ⟨Op.plen, 0, 0⟩ ∧ s.hIs iv ∧ s.paddedTo (s.message.length + 1 + zcount s.message.length) := by
  unfold State.atOp; rw [hop]; rfl

theorem atOp_ldw (hop : s.pc.op = Op.ldw) :
    s.atOp ↔ s.inBlock ∧ s.pc.j.toNat ≤ 15 ∧ s.wIs s.pc.j.toNat s.block := by
  unfold State.atOp; rw [hop]; rfl

theorem atOp_exp (hop : s.pc.op = Op.exp) :
    s.atOp ↔ s.inBlock ∧ 16 ≤ s.pc.j.toNat ∧ s.pc.j.toNat ≤ 79 ∧ s.wIs s.pc.j.toNat s.block := by
  unfold State.atOp; rw [hop]; rfl

theorem atOp_seed (hop : s.pc.op = Op.seed) : s.atOp ↔ s.inBlock ∧ s.pc.j = 0 ∧ s.wIs 80 s.block := by
  unfold State.atOp; rw [hop]; rfl

/-- The working variables before round n of the block at the pc (R132). -/
def State.rounds (s : State) (n : Nat) : Words5 :=
  roundsUpTo (scheduleWord s.block) (chain s.message s.pc.blk.toNat) n

theorem atOp_rnd (hop : s.pc.op = Op.rnd) : s.atOp ↔
    s.inBlock ∧ s.pc.j.toNat ≤ 79 ∧ s.wIs 80 s.block ∧ s.workIs (s.rounds s.pc.j.toNat) := by
  unfold State.atOp; rw [hop]; rfl

theorem atOp_fold (hop : s.pc.op = Op.fold) : s.atOp ↔ s.inBlock ∧ s.pc.j = 0 ∧ s.workIs (s.rounds 80) := by
  unfold State.atOp; rw [hop]; rfl

theorem atOp_ser (hop : s.pc.op = Op.ser) : s.atOp ↔ s.afterBlocks := by
  unfold State.atOp; rw [hop]; rfl

theorem atOp_hex (hop : s.pc.op = Op.hex) : s.atOp ↔ s.afterBlocks ∧ s.digest.holds 0 (digestOf s.message) := by
  unfold State.atOp; rw [hop]; rfl

theorem atOp_fin (hop : s.pc.op = Op.fin) : s.atOp ↔
    s.afterBlocks ∧ s.digest.holds 0 (digestOf s.message) ∧ s.hexstr.holds 0 (hashOf s.message) := by
  unfold State.atOp; rw [hop]; rfl

end

/-- The number of micro-operations from a pc to the end of a hash of n blocks (R161). -/
def PC.stepsLeft (n : Nat) (p : PC) : Nat :=
  match p.op.toNat with
  | 0x1 => 162 * n + 8
  | 0x2 => 162 * n + 7
  | 0x3 => 162 * n + 6
  | 0x4 => 162 * n + 5
  | 0x5 => 162 * n + 4
  | 0x6 => 162 * (n - (p.blk.toNat + 1)) + 85 + (80 - p.j.toNat)
  | 0x7 => 162 * (n - (p.blk.toNat + 1)) + 85 + (80 - p.j.toNat)
  | 0x8 => 162 * (n - (p.blk.toNat + 1)) + 85
  | 0x9 => 162 * (n - (p.blk.toNat + 1)) + 4 + (80 - p.j.toNat)
  | 0xA => 162 * (n - (p.blk.toNat + 1)) + 4
  | 0xB => 3
  | 0xC => 2
  | 0xD => 1
  | _ => 0

theorem idx_succ {j : BitVec 7} (h : j.toNat < 79) : (j + 1).toNat = j.toNat + 1 := by
  bv_omega

theorem blk_succ {b : BitVec 56} {n : Nat} (h : b.toNat < n) (hn : n < 2 ^ 56) : (b + 1).toNat = b.toNat + 1 := by
  rw [BitVec.toNat_add]
  exact Nat.mod_eq_of_lt (by simp; omega)

/-- Each row of R162 takes the pc one micro-operation nearer to the end. -/
theorem stepsLeft_pcAfter {s : State} (hs : s.atOp) (hidle : s.pc.op ≠ Op.idle) (hn : numBlocks s.message < 2 ^ 56) :
    (pcAfter (numBlocks s.message) s.pc).stepsLeft (numBlocks s.message) + 1 =
      s.pc.stepsLeft (numBlocks s.message) := by
  unfold State.atOp at hs
  split at hs
  case h_1 hop => exact absurd (BitVec.eq_of_toNat_eq hop) hidle
  case h_15 => exact hs.elim
  case h_6 hop =>
    have := numBlocks_eq s.message
    simp only [PC.stepsLeft, pcAfter, hop, BitVec.reduceToNat]
    omega
  case h_7 hop | h_8 hop | h_10 hop =>
    obtain ⟨⟨-, hblk, -⟩, hj⟩ := hs
    simp only [PC.stepsLeft, pcAfter, hop]
    split_ifs with hlt
    · simp only [BitVec.reduceToNat, idx_succ (show s.pc.j.toNat < 79 by omega)]
      omega
    · simp only [BitVec.reduceToNat]
      omega
  case h_11 hop =>
    obtain ⟨⟨-, hblk, -⟩, -⟩ := hs
    simp only [PC.stepsLeft, pcAfter, hop]
    split_ifs with hlt
    · simp only [BitVec.reduceToNat, blk_succ hblk hn]
      omega
    · simp only [BitVec.reduceToNat]
      omega
  all_goals
    rename_i hop
    simp only [PC.stepsLeft, pcAfter, hop, BitVec.reduceToNat]

/-! ## What the sequencer runs at a pc -/

section
variable {s : State}

theorem runUop_at {op : BitVec 4} {j : BitVec 7} {i : Instr} (hop : s.pc.op = op) (hj : s.pc.j = j)
    (hd : decodeUop (uopWord op j) = .ok i) : runUop s = exec i s :=
  runUop_ok (by rw [fetchWord, hop, hj, hd])

theorem decodeUop_ldw {j : BitVec 7} (hj : j.toNat ≤ 15) : decodeUop (uopWord Op.ldw j) = .ok (.ldw j) := by
  simp [decodeUop, decodeX, idxWithin, hj]

theorem decodeUop_exp {j : BitVec 7} (hlo : 16 ≤ j.toNat) (hhi : j.toNat ≤ 79) :
    decodeUop (uopWord Op.exp j) = .ok (.exp j) := by
  simp [decodeUop, decodeX, idxWithin, hlo, hhi]

theorem decodeUop_rnd (j : BitVec 7) : decodeUop (uopWord Op.rnd j) = decodeRnd j := by
  simp [decodeUop]

/-- The four RND forms are one round step, with the function and constant of the stage (R68). -/
theorem exec_of_decodeRnd {j : BitVec 7} {i : Instr} (h : decodeRnd j = .ok i) (s : State) :
    exec i s = roundStep (stageFn (stage j.toNat)) (stageK (stage j.toNat)) j s := by
  rw [decodeRnd_eq] at h
  split_ifs at h with h1 h2 h3 h4 <;> obtain rfl := Except.ok.inj h
  · rw [show stage j.toNat = 0 by unfold stage; omega]
    exact withIdx_eq (by omega) _
  · rw [show stage j.toNat = 1 by unfold stage; omega]
    exact withIdx_eq (by omega) _
  · rw [show stage j.toNat = 2 by unfold stage; omega]
    exact withIdx_eq (by omega) _
  · rw [show stage j.toNat = 3 by unfold stage; omega]
    exact withIdx_eq (by omega) _

theorem decodeRnd_isOk {j : BitVec 7} (hj : j.toNat ≤ 79) : ∃ i, decodeRnd j = .ok i := by
  rw [decodeRnd_eq, if_pos (show j.toNat < 80 by omega)]
  split_ifs <;> exact ⟨_, rfl⟩

theorem runUop_rnd (hop : s.pc.op = Op.rnd) (hj : s.pc.j.toNat ≤ 79) : runUop s =
    roundStep (stageFn (stage s.pc.j.toNat)) (stageK (stage s.pc.j.toNat)) s.pc.j s := by
  obtain ⟨i, hi⟩ := decodeRnd_isOk hj
  rw [runUop_at hop rfl ((decodeUop_rnd _).trans hi), exec_of_decodeRnd hi]

end

/-! ## The twelve micro-operations before FIN -/

/-- What every micro-operation before FIN leaves alone. -/
structure KeepsMessageAndFlags (s t : State) : Prop where
  msgCap : t.msgCap = s.msgCap
  msg : t.msg = s.msg
  len : t.len = s.len
  busy : t.busy = s.busy
  done : t.done = s.done
  turns : t.turns = s.turns

/-- The micro-operation at the pc goes on to the next row of R162, where all the values the invariant asks for have been
computed. -/
def State.Advances (s : State) : Prop :=
  ∃ t, runUop s = .next t ∧ KeepsMessageAndFlags s t ∧ t.pc = pcAfter (numBlocks s.message) s.pc ∧ t.atOp

section
variable {s : State}

theorem init_advances (hpc : s.pc = ⟨Op.init, 0, 0⟩) : s.Advances :=
  ⟨_, (runUop_at (i := .init) (by rw [hpc]) (by rw [hpc]) rfl).trans (execInit_next.2 rfl),
    by constructor <;> simp, by rw [hpc]; rfl, (atOp_pcpy rfl).2 ⟨rfl, rfl⟩⟩

theorem pcpy_advances (h : s.Inv) (hpc : s.pc = ⟨Op.pcpy, 0, 0⟩) (hH : s.hIs iv) : s.Advances := by
  obtain ⟨hlen, hholds⟩ := message_bytes h.message.2
  have hcap := message_length_le h
  have hpbuf := pbufCap_bounds s.msgCap
  refine ⟨_, (runUop_at (i := .pcpy) (by rw [hpc]) (by rw [hpc]) rfl).trans
      (execPcpy_next.2 ⟨s.message, hlen, .inr h.message.1, hholds, .inr (by omega), rfl⟩),
    by constructor <;> simp, by rw [hpc]; rfl, (atOp_pmrk rfl).2 ⟨rfl, hH, ?_, ?_⟩⟩
  · show some (s.len.setWidth 62) = some (BitVec.ofNat 62 s.message.length)
    rw [hlen, BitVec.ofNat_toNat]
  · show (s.pbuf.writeList 0 s.message).holds 0 ((pad s.message).take s.message.length)
    rw [(pad_take s.message).1]
    exact holds_writeList s.pbuf 0 s.message

theorem pmrk_advances (h : s.Inv) (hpc : s.pc = ⟨Op.pmrk, 0, 0⟩) (hH : s.hIs iv) (hp : s.paddedTo s.message.length) :
    s.Advances := by
  obtain ⟨htake, hmark, -⟩ := pad_take s.message
  have hcap := pad_message_le h
  have hlen := pad_length s.message
  have hpl := pl_toNat h (n := s.message.length) (by omega)
  have happend := paddedTo_append (vs := [0x80]) h hp (by omega) (by rw [htake]; exact hmark)
  exact ⟨_, (runUop_at (i := .pmrk) (by rw [hpc]) (by rw [hpc]) rfl).trans
      (execPmrk_next.2 ⟨_, hp.1, by omega, rfl⟩),
    by constructor <;> simp, by rw [hpc]; rfl, (atOp_pzer rfl).2 ⟨rfl, hH, happend⟩⟩

theorem pzer_advances (h : s.Inv) (hpc : s.pc = ⟨Op.pzer, 0, 0⟩) (hH : s.hIs iv)
    (hp : s.paddedTo (s.message.length + 1)) : s.Advances := by
  obtain ⟨-, hmark, hzeros⟩ := pad_take s.message
  have hcap := pad_message_le h
  have hlen := pad_length s.message
  have hz : zcountOfPl (BitVec.ofNat 62 (s.message.length + 1)).toNat = zcount s.message.length := by
    rw [pl_toNat h (by omega), zcountOfPl_succ]
  have hpl := pl_toNat h (n := s.message.length + 1) (by omega)
  have happend := paddedTo_append (vs := List.replicate (zcount s.message.length) 0) h hp (by omega)
    (by rw [List.length_replicate, hmark]; exact hzeros)
  rw [List.length_replicate] at happend
  refine ⟨_, (runUop_at (i := .pzer) (by rw [hpc]) (by rw [hpc]) rfl).trans
      (execPzer_next.2 ⟨_, hp.1, .inr (by omega), rfl⟩),
    by constructor <;> simp, by rw [hpc]; rfl, (atOp_plen rfl).2 ⟨rfl, hH, ?_⟩⟩
  rw [hz]
  exact happend

theorem wIs_zero (s : State) (x : List Byte) : s.wIs 0 x := fun i hi => absurd hi (Nat.not_lt_zero i)

/-- With the whole message padded, its blocks counted and H = IV, the first word of block 0 can be loaded. -/
theorem atOp_firstBlock (hp : s.paddedTo (pad s.message).length) (hH : s.hIs iv) :
    ((s.setNblk (BitVec.ofNat 56 (numBlocks s.message))).setPc ⟨Op.ldw, 0, 0⟩).atOp := by
  have hblocks : 0 < numBlocks s.message := by rw [numBlocks_eq]; omega
  exact (atOp_ldw rfl).2 ⟨⟨⟨hp, rfl⟩, hblocks, hH⟩, Nat.zero_le 15, wIs_zero _ _⟩

theorem plen_advances (h : s.Inv) (hpc : s.pc = ⟨Op.plen, 0, 0⟩) (hH : s.hIs iv)
    (hp : s.paddedTo (s.message.length + 1 + zcount s.message.length)) : s.Advances := by
  obtain ⟨-, -, hzeros⟩ := pad_take s.message
  obtain ⟨hmsg, -⟩ := message_bytes h.message.2
  have hcap := pad_message_le h
  have hlen := pad_length s.message
  have hpl := pl_toNat h (n := s.message.length + 1 + zcount s.message.length) (by omega)
  have happend := paddedTo_append (vs := unbe64 (len8 s.len.toNat)) h hp (by omega) (by
    rw [hzeros, ← hmsg, unbe64_length, ← hlen, List.take_length, pad])
  rw [unbe64_length, ← hlen, hpl] at happend
  refine ⟨_, (runUop_at (i := .plen) (by rw [hpc]) (by rw [hpc]) rfl).trans
      (execPlen_next.2 ⟨_, hp.1, by omega, rfl⟩),
    by constructor <;> simp, by rw [hpc]; rfl, ?_⟩
  rw [hpl, ← hlen]
  exact atOp_firstBlock happend hH

/-! ### The block group -/

/-- Byte k of the block at the pc stands in PBUF at 64 * blk + k. -/
theorem read_blockByte (h : s.inBlock) {k : Nat} (hk : k < 64) :
    s.pbuf.read (64 * s.pc.blk.toNat + k) = some (s.block.getD k 0) := by
  obtain ⟨⟨⟨-, hholds⟩, -⟩, hblk, -⟩ := h
  rw [List.take_length] at hholds
  have hlen := pad_length_eq_blocks s.message
  have hlt : 64 * s.pc.blk.toNat + k < (pad s.message).length := by omega
  have hbyte := hholds _ hlt
  rw [List.getElem?_eq_getElem hlt, Nat.zero_add] at hbyte
  rw [hbyte, State.block, blockOf_getD hk (List.getElem?_eq_getElem hlt)]

/-- R121: the word LDW j loads is word j of the schedule. -/
theorem load_scheduleWord (h : s.Inv) (hb : s.inBlock) {j : BitVec 7} (hj : j.toNat ≤ 15) :
    load32 .pbuf (pbufCap s.msgCap) s.pbuf (ldwAddr s.pc.blk j) = .ok (scheduleWord s.block j.toNat) := by
  have hcap := pad_message_le h
  have hlen := pad_length_eq_blocks s.message
  have ⟨_, hblk, _⟩ := hb
  have byte (k : Nat) (hk : k < 4) : s.pbuf.read (ldwAddr s.pc.blk j + k) = some (s.block.getD (4 * j.toNat + k) 0) := by
    rw [ldwAddr, Nat.add_assoc]
    exact read_blockByte hb (by omega)
  exact load32_ok.2 ⟨by rw [ldwAddr]; omega, _, _, _, _, byte 0 (by decide), byte 1 (by decide), byte 2 (by decide),
    byte 3 (by decide), scheduleWord_lt s.block (by omega)⟩

/-- Writing word n after the first n words of a schedule. -/
theorem wIs_setW {n : Nat} {x : List Byte} (h : s.wIs n x) (hn : n < 80) :
    (s.setW n (scheduleWord x n)).wIs (n + 1) x := by
  intro i hi
  rw [wAt_setW]
  rcases Nat.lt_succ_iff_lt_or_eq.1 hi with hlt | rfl
  · rw [if_neg (by omega), h i hlt]
  · rw [if_pos ⟨rfl, hn⟩]

theorem ldw_advances (h : s.Inv) (hop : s.pc.op = Op.ldw) (hb : s.inBlock) (hj : s.pc.j.toNat ≤ 15)
    (hw : s.wIs s.pc.j.toNat s.block) : s.Advances := by
  have hw' := wIs_setW hw (by omega)
  refine ⟨_, (runUop_at hop rfl (decodeUop_ldw hj)).trans (execLdw_next.2 ⟨hj, _, load_scheduleWord h hb hj, rfl⟩),
    by constructor <;> simp, by unfold pcAfter; rw [hop]; rfl, ?_⟩
  by_cases hlt : s.pc.j.toNat < 15
  · rw [loopPc_lt hlt]
    rw [← idx_succ (by omega)] at hw'
    exact (atOp_ldw rfl).2 ⟨hb, (idx_succ (by omega)).trans_le hlt, hw'⟩
  · rw [loopPc_last hlt]
    rw [show s.pc.j.toNat + 1 = 16 by omega] at hw'
    exact (atOp_exp rfl).2 ⟨hb, le_refl 16, (by decide : 16 ≤ 79), hw'⟩

theorem exp_advances (hop : s.pc.op = Op.exp) (hb : s.inBlock) (hlo : 16 ≤ s.pc.j.toNat)
    (hhi : s.pc.j.toNat ≤ 79) (hw : s.wIs s.pc.j.toNat s.block) : s.Advances := by
  have hw' := wIs_setW hw (by omega)
  rw [scheduleWord_ge _ hlo] at hw'
  refine ⟨_, (runUop_at hop rfl (decodeUop_exp hlo hhi)).trans (execExp_next.2 ⟨⟨hlo, hhi⟩, _, _, _, _,
      hw _ (by omega), hw _ (by omega), hw _ (by omega), hw _ (by omega), rfl⟩),
    by constructor <;> simp, by unfold pcAfter; rw [hop]; rfl, ?_⟩
  by_cases hlt : s.pc.j.toNat < 79
  · rw [loopPc_lt hlt]
    have hidx := idx_succ hlt
    rw [← hidx] at hw'
    exact (atOp_exp rfl).2 ⟨hb, hidx.ge.trans' (by omega), hidx.trans_le hlt, hw'⟩
  · rw [loopPc_last hlt]
    rw [show s.pc.j.toNat + 1 = 80 by omega] at hw'
    exact (atOp_seed rfl).2 ⟨hb, rfl, hw'⟩

theorem seed_advances (hop : s.pc.op = Op.seed) (hb : s.inBlock) (hj : s.pc.j = 0) (hw : s.wIs 80 s.block) :
    s.Advances :=
  have ⟨_, _, hH⟩ := hb
  ⟨_, (runUop_at (i := .seed) hop hj rfl).trans (execSeed_next.2 ⟨_, hH, rfl⟩),
    by constructor <;> simp, by unfold pcAfter; rw [hop]; rfl,
    (atOp_rnd rfl).2 ⟨hb, Nat.zero_le 79, hw, rfl, rfl, rfl, rfl, rfl⟩⟩

theorem rnd_advances (hop : s.pc.op = Op.rnd) (hb : s.inBlock) (hj : s.pc.j.toNat ≤ 79) (hw : s.wIs 80 s.block)
    (hv : s.workIs (s.rounds s.pc.j.toNat)) : s.Advances := by
  have hround : s.rounds (s.pc.j.toNat + 1) = roundWords (stageFn (stage s.pc.j.toNat)) (stageK (stage s.pc.j.toNat))
      (scheduleWord s.block s.pc.j.toNat) (s.rounds s.pc.j.toNat) := rfl
  refine ⟨_, (runUop_rnd hop hj).trans (roundStep_next.2 ⟨_, _, hv, hw _ (by omega), rfl⟩),
    by constructor <;> simp, by unfold pcAfter; rw [hop]; rfl, ?_⟩
  rw [← hround]
  by_cases hlt : s.pc.j.toNat < 79
  · rw [loopPc_lt hlt]
    have hidx := idx_succ hlt
    rw [← hidx]
    exact (atOp_rnd rfl).2 ⟨hb, hidx.trans_le hlt, hw, rfl, rfl, rfl, rfl, rfl⟩
  · rw [loopPc_last hlt, show s.pc.j.toNat + 1 = 80 by omega]
    exact (atOp_fold rfl).2 ⟨hb, rfl, rfl, rfl, rfl, rfl, rfl⟩

theorem fold_advances (h : s.Inv) (hop : s.pc.op = Op.fold) (hb : s.inBlock) (hj : s.pc.j = 0)
    (hv : s.workIs (s.rounds 80)) : s.Advances := by
  obtain ⟨hpad, hblk, hH⟩ := hb
  have hlt := numBlocks_lt h
  have hn : (BitVec.ofNat 56 (numBlocks s.message)).toNat = numBlocks s.message := Nat.mod_eq_of_lt hlt
  have hnext := blk_succ hblk hlt
  have hchain : chain s.message (s.pc.blk + 1).toNat = foldWords (chain s.message s.pc.blk.toNat) (s.rounds 80) := by
    rw [hnext]; rfl
  refine ⟨_, (runUop_at (i := .fold) hop hj rfl).trans (execFold_next.2 ⟨_, _, _, hH, hv, hpad.2, rfl⟩),
    by constructor <;> simp, by unfold pcAfter foldPc; rw [hop, hn]; rfl, ?_⟩
  rw [← hchain]
  by_cases hmore : s.pc.blk.toNat + 1 < numBlocks s.message
  · rw [foldPc, if_pos (by rwa [hn])]
    exact (atOp_ldw rfl).2 ⟨⟨hpad, hnext.trans_lt hmore, rfl⟩, Nat.zero_le 15, wIs_zero _ _⟩
  · have hlast : (s.pc.blk + 1).toNat = numBlocks s.message := by omega
    rw [foldPc, if_neg (by rwa [hn]), hlast]
    exact (atOp_ser rfl).2 ⟨hlast, rfl, rfl⟩

/-! ### After the last block -/

theorem atOp_afterSer {m : Memory} (hend : s.afterBlocks) (hd : m.holds 0 (digestOf s.message)) :
    ((s.setDigest m).setPc ⟨Op.hex, s.pc.blk, 0⟩).atOp :=
  have ⟨hblk, _, hH⟩ := hend
  (atOp_hex rfl).2 ⟨⟨hblk, rfl, hH⟩, hd⟩

theorem atOp_afterHex {m : Memory} (hend : s.afterBlocks) (hd : s.digest.holds 0 (digestOf s.message))
    (hx : m.holds 0 (hashOf s.message)) : ((s.setHexstr m).setPc ⟨Op.fin, s.pc.blk, 0⟩).atOp :=
  have ⟨hblk, _, hH⟩ := hend
  (atOp_fin rfl).2 ⟨⟨hblk, rfl, hH⟩, hd, hx⟩

theorem ser_advances (hop : s.pc.op = Op.ser) (hend : s.afterBlocks) : s.Advances := by
  have ⟨_, hj, hH⟩ := hend
  exact ⟨_, (runUop_at (i := .ser) hop hj rfl).trans (execSer_next.2 ⟨_, hH, rfl⟩),
    by constructor <;> simp, by unfold pcAfter; rw [hop]; rfl, atOp_afterSer hend (holds_writeList _ _ _)⟩

theorem hex_advances (hop : s.pc.op = Op.hex) (hend : s.afterBlocks) (hd : s.digest.holds 0 (digestOf s.message)) :
    s.Advances := by
  have ⟨_, hj, _⟩ := hend
  exact ⟨_, (runUop_at (i := .hex) hop hj rfl).trans (execHex_next.2 ⟨_, digestOf_length _, hd, rfl⟩),
    by constructor <;> simp, by unfold pcAfter; rw [hop]; rfl, atOp_afterHex hend hd (holds_writeList _ _ _)⟩

/-! ### Every row -/

theorem op_ne_idle (h : s.Inv) (hbusy : s.busy = true) : s.pc.op ≠ Op.idle := fun hop => by
  simp [h.rest.2 hop] at hbusy

/-- R162, R236: from a busy state with the invariant every micro-operation but FIN goes on to the next row. -/
theorem advances_of_inv (h : s.Inv) (hbusy : s.busy = true) (hfin : s.pc.op ≠ Op.fin) : s.Advances := by
  have hphase := h.phase
  unfold State.atOp at hphase
  split at hphase
  case h_1 hop => exact absurd (BitVec.eq_of_toNat_eq hop) (op_ne_idle h hbusy)
  case h_2 => exact init_advances hphase
  case h_3 =>
    obtain ⟨hpc, hH⟩ := hphase
    exact pcpy_advances h hpc hH
  case h_4 =>
    obtain ⟨hpc, hH, hp⟩ := hphase
    exact pmrk_advances h hpc hH hp
  case h_5 =>
    obtain ⟨hpc, hH, hp⟩ := hphase
    exact pzer_advances h hpc hH hp
  case h_6 =>
    obtain ⟨hpc, hH, hp⟩ := hphase
    exact plen_advances h hpc hH hp
  case h_7 hop =>
    obtain ⟨hb, hj, hw⟩ := hphase
    exact ldw_advances h (BitVec.eq_of_toNat_eq hop) hb hj hw
  case h_8 hop =>
    obtain ⟨hb, hlo, hhi, hw⟩ := hphase
    exact exp_advances (BitVec.eq_of_toNat_eq hop) hb hlo hhi hw
  case h_9 hop =>
    obtain ⟨hb, hj, hw⟩ := hphase
    exact seed_advances (BitVec.eq_of_toNat_eq hop) hb hj hw
  case h_10 hop =>
    obtain ⟨hb, hj, hw, hv⟩ := hphase
    exact rnd_advances (BitVec.eq_of_toNat_eq hop) hb hj hw hv
  case h_11 hop =>
    obtain ⟨hb, hj, hv⟩ := hphase
    exact fold_advances h (BitVec.eq_of_toNat_eq hop) hb hj hv
  case h_12 hop => exact ser_advances (BitVec.eq_of_toNat_eq hop) hphase
  case h_13 hop =>
    obtain ⟨hend, hd⟩ := hphase
    exact hex_advances (BitVec.eq_of_toNat_eq hop) hend hd
  case h_14 hop => exact absurd (BitVec.eq_of_toNat_eq hop) hfin
  case h_15 => exact hphase.elim

end

/-! # Runs with the host in between (R54, R187) -/

section
variable {s t : State}

/-- The invariant does not see the host's side. -/
theorem inv_hostSide (h : s.Inv) (ts : List Turn) (r : Option Word) (n : Nat) :
    State.Inv { s with turns := ts, rdata := r, freeIdx := n } :=
  ⟨h.wf, h.bounds, h.message, h.rest, h.result, h.phase⟩

theorem stepsLeft_idle (n : Nat) {p : PC} (h : p.op = Op.idle) : p.stepsLeft n = 0 := by
  unfold PC.stepsLeft; rw [h]; rfl

/-- FIN is the last micro-operation, and the only last one. -/
theorem stepsLeft_eq_one_iff (n : Nat) (p : PC) : p.stepsLeft n = 1 ↔ p.op = Op.fin := by
  rw [← BitVec.toNat_inj]
  show p.stepsLeft n = 1 ↔ p.op.toNat = 13
  unfold PC.stepsLeft
  split
  case h_14 =>
    rename_i hne
    exact iff_of_false Nat.zero_ne_one hne
  all_goals omega

/-- The core can be done only at rest (R16). -/
theorem done_of_busy (h : s.Inv) (hbusy : s.busy = true) : s.done = false := (legalStatusValues s h).2.1 hbusy

/-- R162, R236: every micro-operation but FIN keeps the invariant, the message, the flags and the turns, and counts one. -/
theorem runUop_keeps_inv (h : s.Inv) (hbusy : s.busy = true) (hfin : s.pc.op ≠ Op.fin) :
    ∃ t, runUop s = .next t ∧ t.Inv ∧ KeepsMessageAndFlags s t ∧
      t.pc.stepsLeft (numBlocks s.message) + 1 = s.pc.stepsLeft (numBlocks s.message) := by
  obtain ⟨t, hrun, hkeep, hpc, hphase⟩ := advances_of_inv h hbusy hfin
  have hcount := stepsLeft_pcAfter h.phase (op_ne_idle h hbusy) (numBlocks_lt h)
  rw [← hpc] at hcount
  have hidle : t.pc.op ≠ Op.idle := fun hop => by
    rw [stepsLeft_idle _ hop] at hcount
    exact hfin ((stepsLeft_eq_one_iff _ _).1 hcount.symm)
  obtain ⟨hwf, hbounds⟩ := runUop_keeps_memories ⟨h.wf, h.bounds⟩ hrun
  refine ⟨t, hrun, ⟨hwf, hbounds, ?message, ?rest, ?result, hphase⟩, hkeep, hcount⟩
  case message => rw [hkeep.len, hkeep.msgCap, hkeep.msg]; exact h.message
  case rest => simpa [hkeep.busy, hbusy] using hidle
  case result => simp [hkeep.done, done_of_busy h hbusy]

/-- FIN leaves DONE = 1 with the digest and the hash of the message in place (R154, R160). -/
theorem fin_ends (h : s.atOp) (hop : s.pc.op = Op.fin) : runUop s = .next (endHash s) ∧
    s.digest.holds 0 (digestOf s.message) ∧ s.hexstr.holds 0 (hashOf s.message) := by
  obtain ⟨⟨-, hj, -⟩, hdigest, hhex⟩ := (atOp_fin hop).1 h
  exact ⟨(runUop_at (i := .fin) hop hj rfl).trans (execFin_next.2 rfl), hdigest, hhex⟩

end

/-- DONE = 1 with a message and its digest and hash. -/
def State.resultIs (s : State) (m : List Byte) : Prop :=
  s.done = true ∧ s.message = m ∧ s.digest.holds 0 (digestOf m) ∧ s.hexstr.holds 0 (hashOf m)

/-- However the host's turns fall between, when as many turns of the sequencer are left as micro-operations the last turn ends
the hash: the sequencer's turns count down, the host's change nothing. -/
theorem run_interleaved (ts : List Turn) {s : State} (h : s.Inv) (hbusy : s.busy = true)
    (hturns : s.turns = ts ++ [.core]) (hlegal : ∀ u ∈ ts, turnLegal u = true ∧ turnIsReset u = false)
    (hcount : ts.count .core + 1 = s.pc.stepsLeft (numBlocks s.message)) :
    ∃ t, Sys2Proof.core.run (ts.length + 1) s = .next t ∧ t.resultIs s.message := by
  induction ts generalizing s with
  | nil =>
    have hop := (stepsLeft_eq_one_iff _ _).1 hcount.symm
    obtain ⟨hrun, hdigest, hhex⟩ := fin_ends (inv_setTurns h []).phase hop
    have hstep : step s = .next (endHash (s.setTurns [])) := by rw [step_core hturns, if_pos hbusy, hrun]
    exact ⟨_, run_succ hstep, rfl, rfl, hdigest, hhex⟩
  | cons u ts ih =>
    obtain ⟨⟨hu, hureset⟩, hrest⟩ := List.forall_mem_cons.1 hlegal
    rw [List.cons_append] at hturns
    cases u with
    | core =>
      rw [List.count_cons_self] at hcount
      have hfin : s.pc.op ≠ Op.fin := fun hop => by
        have := (stepsLeft_eq_one_iff (numBlocks s.message) s.pc).2 hop
        omega
      obtain ⟨t, hrun, hinv, hkeep, hleft⟩ := runUop_keeps_inv (inv_setTurns h (ts ++ [.core])) hbusy hfin
      have hmsg : t.message = s.message := message_congr hkeep.msg hkeep.len
      have hstep : step s = .next t := by rw [step_core hturns, if_pos hbusy, hrun]
      rw [List.length_cons, run_succ hstep, ← hmsg]
      refine ih hinv (hkeep.busy.trans hbusy) hkeep.turns hrest ?_
      rw [hmsg]
      exact Nat.succ_injective (hcount.trans hleft.symm)
    | host a =>
      rw [List.count_cons_of_ne (by simp)] at hcount
      obtain ⟨r, n, hstep⟩ :=
        hostCannotDisturbABusyCore s a (ts ++ [.core]) hbusy (done_of_busy h hbusy) hturns hu hureset
      rw [List.length_cons, run_succ hstep]
      exact ih (inv_hostSide h _ r n) hbusy rfl hrest hcount

/-- Settles O58: at INIT all 8 + 162 * NBLK micro-operations of the hash are left (R161). -/
theorem hostInterleavingDoesNotMatter : Obligations.HostInterleavingDoesNotMatter := by
  unfold Obligations.HostInterleavingDoesNotMatter
  intro s ts h hpc hturns hlegal hcount
  have hbusy : s.busy = true := by
    have hrest := h.rest
    rw [hpc] at hrest
    simpa using hrest
  refine run_interleaved ts h hbusy hturns hlegal ?_
  rw [hcount, hpc, Nat.add_comm]
  rfl

end Sys2Proof.Machine

/-! # The decoder as the opcode map (R70 to R72)

A row matches a word exactly when the op code is the row's and the row takes the index. So each branch of the decoder is held
against the few rows of its own op code. -/

namespace Sys2Proof

/-! ## A row's test, field by field -/

theorem uopOp_and (w m : BitVec 11) : uopOp (w &&& m) = uopOp w &&& uopOp m := BitVec.extractLsb'_and ..

theorem uopIdx_and (w m : BitVec 11) : uopIdx (w &&& m) = uopIdx w &&& uopIdx m := BitVec.extractLsb'_and ..

theorem uop_ext_iff {w v : BitVec 11} : w = v ↔ uopOp w = uopOp v ∧ uopIdx w = uopIdx v :=
  ⟨fun h => h ▸ ⟨rfl, rfl⟩, fun ⟨hop, hidx⟩ => by rw [← uopWord_fields w, hop, hidx, uopWord_fields]⟩

/-- What a row asks of the index alone. -/
def UopRow.takes (r : UopRow) (idx : BitVec 7) : Prop :=
  idx &&& uopIdx r.mask = uopIdx r.pat ∧ idxWithin r.lo r.hi idx = true

theorem uopRows_mask_op : ∀ r ∈ uopRows, uopOp r.mask = BitVec.allOnes 4 := by decide

theorem UopRow.matches_iff {r : UopRow} (hr : r ∈ uopRows) (w : BitVec 11) :
    r.matches w = true ↔ (uopOp r.pat).toNat = (uopOp w).toNat ∧ r.takes (uopIdx w) := by
  simp only [UopRow.matches, UopRow.takes, Bool.and_eq_true, decide_eq_true_eq, uop_ext_iff, uopOp_and, uopIdx_and,
    uopRows_mask_op r hr, BitVec.and_allOnes, and_assoc, BitVec.toNat_inj, @eq_comm _ (uopOp r.pat)]

/-! ## The rows of one op code -/

/-- The rows of R70 with op code n. -/
def rowsOf (n : Nat) : List UopRow := uopRows.filter fun r => (uopOp r.pat).toNat = n

/-- One of these rows takes the index and makes the instruction of it. -/
def namedBy (rows : List UopRow) (idx : BitVec 7) (i : Instr) : Prop := ∃ r ∈ rows, r.takes idx ∧ i = r.make idx

theorem exists_matches_iff (w : BitVec 11) (i : Instr) :
    (∃ r ∈ uopRows, r.matches w = true ∧ i = r.make (uopIdx w)) ↔ namedBy (rowsOf (uopOp w).toNat) (uopIdx w) i := by
  simp only [namedBy, rowsOf, List.mem_filter, decide_eq_true_eq, and_assoc]
  exact exists_congr fun r => and_congr_right fun hr => by rw [UopRow.matches_iff hr, and_assoc]

theorem uopRows_op_range : ∀ r ∈ uopRows, 0x1 ≤ (uopOp r.pat).toNat ∧ (uopOp r.pat).toNat ≤ 0xD := by decide

/-- R71: IDLE and the reserved op codes have no row. -/
theorem rowsOf_eq_nil {n : Nat} (h : n = 0 ∨ 0xD < n) : rowsOf n = [] := by
  refine List.filter_eq_nil_iff.2 fun r hr => ?_
  have := uopRows_op_range r hr
  simp only [decide_eq_true_eq]
  omega

section
variable {idx : BitVec 7} {i : Instr}

theorem not_namedBy_nil : ¬ namedBy [] idx i := by simp [namedBy]

theorem namedBy_cons {r : UopRow} {rows : List UopRow} :
    namedBy (r :: rows) idx i ↔ r.takes idx ∧ i = r.make idx ∨ namedBy rows idx i := by
  simp [namedBy]

theorem namedBy_singleton {r : UopRow} : namedBy [r] idx i ↔ r.takes idx ∧ i = r.make idx := by
  rw [namedBy_cons, or_iff_left not_namedBy_nil]

/-! ## Each form of decoding against its rows -/

/-- Where the range already fixes the index bits under the row's mask, the range is all that counts. -/
theorem UopRow.takes_iff {r : UopRow}
    (hmask : idxWithin r.lo r.hi idx = true → idx &&& uopIdx r.mask = uopIdx r.pat) :
    r.takes idx ↔ idxWithin r.lo r.hi idx = true := and_iff_right_of_imp hmask

theorem decodeX_iff_row {pat mask : BitVec 11} {lo hi : Nat} {mk : BitVec 7 → Instr}
    (hmask : idxWithin lo hi idx = true → idx &&& uopIdx mask = uopIdx pat) :
    decodeX lo hi idx mk = .ok i ↔ namedBy [⟨pat, mask, lo, hi, mk⟩] idx i := by
  rw [namedBy_singleton, UopRow.takes_iff hmask, decodeX]
  split_ifs with h <;> simp [h, eq_comm]

/-- Format N is the range of the one index 0 (R61). -/
theorem decodeN_iff_row {pat : BitVec 11} {i' : Instr} (hpat : uopIdx pat = 0) :
    decodeN idx i' = .ok i ↔ namedBy [⟨pat, 0x7FF, 0, 0, fun _ => i'⟩] idx i := by
  have hzero : idxWithin 0 0 idx = true ↔ idx = 0 := by revert idx; decide
  rw [← decodeX_iff_row (by rw [hzero, hpat]; rintro rfl; rfl), decodeN, decodeX]
  simp only [hzero]
  split_ifs <;> simp

/-- The mask of LDW's row has the three high index bits besides the op code; the range 0 to 15 leaves them 0. -/
theorem ldw_range_fixes_masked_bits : idxWithin 0 15 idx = true → idx &&& uopIdx 0x7F0 = uopIdx 0x300 := by
  revert idx; decide

/-- The row of an RND form with the indices lo to hi. -/
def rndRow (lo hi : Nat) (mk : BitVec 7 → Instr) : UopRow := ⟨0x480, 0x780, lo, hi, mk⟩

theorem namedBy_rndRow {lo hi : Nat} {mk : BitVec 7 → Instr} {rows : List UopRow} :
    namedBy (rndRow lo hi mk :: rows) idx i ↔ (lo ≤ idx.toNat ∧ idx.toNat ≤ hi) ∧ i = mk idx ∨ namedBy rows idx i := by
  rw [namedBy_cons, UopRow.takes_iff fun _ => show idx &&& uopIdx 0x780 = uopIdx 0x480 from BitVec.and_zero,
    Machine.idxWithin_iff]
  rfl

/-- R68: the four RND forms are the four rows of one op code, told apart by the index. -/
theorem decodeRnd_iff_rows : decodeRnd idx = .ok i ↔ namedBy (rowsOf 0x9) idx i := by
  have hrows : rowsOf 0x9 =
      [rndRow 0 19 .rndCh, rndRow 20 39 .rndPar1, rndRow 40 59 .rndMaj, rndRow 60 79 .rndPar2] := rfl
  rw [hrows, decodeRnd_eq]
  simp only [namedBy_rndRow, not_namedBy_nil, or_false]
  split_ifs <;> grind

end

/-- Settles O7: each branch of the decoder is one of the three forms over the rows of its op code, or has no row. -/
theorem decoderIsTheOpcodeMap : Obligations.DecoderIsTheOpcodeMap := by
  unfold Obligations.DecoderIsTheOpcodeMap
  intro w i
  rw [exists_matches_iff]
  have no_row {n : Nat} (h : n = 0 ∨ 0xD < n) : ¬ namedBy (rowsOf n) (uopIdx w) i := by
    rw [rowsOf_eq_nil h]
    exact not_namedBy_nil
  unfold decodeUop
  split
  case h_1 hop => exact iff_of_false (by simp) (no_row (.inl hop))
  case h_7 hop => -- LDW
    rw [hop]
    exact decodeX_iff_row ldw_range_fixes_masked_bits
  case h_8 hop => -- EXP
    rw [hop]
    exact decodeX_iff_row fun _ => BitVec.and_zero
  case h_10 hop => -- RND
    rw [hop]
    exact decodeRnd_iff_rows
  case h_15 => exact iff_of_false (by simp) (no_row (by grind))
  all_goals -- the format N branches
    rename_i hop
    rw [hop]
    exact decodeN_iff_row rfl

/-! # Sample words and host writes (R66, R70) -/

/-- Settles O10: each word is evaluated. -/
theorem sampleWordsDecode : Obligations.SampleWordsDecode := by
  unfold Obligations.SampleWordsDecode
  decide

/-- R19: bit 0 of a CTRL write is START, bit 1 CLEAR. -/
theorem decodeWrite_ctrl (v : Word) : decodeWrite ctrlOff v =
    if v.getLsbD 0 then .ok (.start (v.getLsbD 1)) else if v.getLsbD 1 then .ok .clear else .error .noCommandBit := rfl

theorem decodeWrite_push (v : Word) : decodeWrite msgPushOff v = .ok (.push (v.setWidth 8)) := by
  rw [BitVec.setWidth_eq_extractLsb' (by decide)]
  rfl

/-- Settles O11, register by register. -/
theorem hostWriteCommands : Obligations.HostWriteCommands := by
  unfold Obligations.HostWriteCommands
  intro off v
  rw [show (0x00 : Nat) = ctrlOff from rfl, decodeWrite_ctrl]
  refine ⟨?start, ?clear, ?noBit, decodeWrite_push v, ?noRegister⟩
  case start =>
    intro h0
    rw [if_pos h0]
  case clear =>
    intro h0 h1
    rw [h0, if_neg Bool.false_ne_true, if_pos h1]
  case noBit =>
    intro h0 h1 i
    rw [h0, h1]
    simp
  case noRegister =>
    intro hctrl hpush i
    simp [Machine.decodeWrite_no_command hctrl hpush]

end Sys2Proof

/-! # What is refused (R71, R72, U6) -/

namespace Sys2Proof.Machine

theorem withIdx_outside {lo hi : Nat} {j : BitVec 7} (hj : idxWithin lo hi j = false)
    (k : Host.Outcome State Fault Refusal) : withIdx lo hi j k = .refused .noMicroOp := by
  simp [withIdx, hj]

/-- R72: the only ill-formed instructions are format X ones with the index outside its row, and those have no meaning. -/
theorem exec_refused_of_not_wf {i : Instr} (hwf : i.wf = false) (s : State) : exec i s = .refused .noMicroOp := by
  cases i with
  | ldw j | exp j | rndCh j | rndPar1 j | rndMaj j | rndPar2 j => exact withIdx_outside hwf _
  | init | pcpy | pmrk | pzer | plen | seed | fold | ser | hex | fin | start c | clear | push b => cases hwf

/-- Settles O35: a well-formed instruction is never refused, an ill-formed one always. -/
theorem onlyIllFormedRefused : Obligations.OnlyIllFormedRefused := by
  unfold Obligations.OnlyIllFormedRefused
  intro i s
  constructor
  · rintro ⟨r, hr⟩
    by_contra hwf
    exact exec_ne_refused (by simpa using hwf) s r hr
  · exact fun hwf => ⟨_, exec_refused_of_not_wf hwf s⟩

end Sys2Proof.Machine

/-! # Primitive functions (R80 to R97) -/

namespace Sys2Proof.Machine

/-! ## Addition and the rotate (R80, R85, R86) -/

/-- R80: 2^32 - x as a word is the negative of x, also where x is 0 and the difference is 2^32. -/
theorem add32_complement (x : Word) : add32 x (BitVec.ofNat 32 (2 ^ 32 - x.toNat)) = 0 := BitVec.add_right_neg x

/-- Settles O1 by the laws of bit vectors. -/
theorem additionIsModulo2Pow32 : Obligations.AdditionIsModulo2Pow32 := by
  unfold Obligations.AdditionIsModulo2Pow32
  exact fun x y z => ⟨BitVec.toNat_add x y, BitVec.add_comm x y, BitVec.add_assoc x y z, BitVec.add_zero x,
    add32_complement x⟩

/-- R85: the two halves of the rotate share no bit, so their union is their sum. -/
theorem rotl_toNat (n : Word) (r : RotAmt) :
    (rotl n r).toNat = (n.toNat * 2 ^ r.val) % 2 ^ 32 + n.toNat / 2 ^ (32 - r.val) := by
  have hpow : 2 ^ (32 - r.val) * 2 ^ r.val = 2 ^ 32 := pow_sub_mul_pow 2 r.2.2.le
  have hlow : n.toNat / 2 ^ (32 - r.val) < 2 ^ r.val := Nat.div_lt_of_lt_mul (hpow ▸ n.isLt)
  have hhigh : (n.toNat * 2 ^ r.val) % 2 ^ 32 = (n.toNat % 2 ^ (32 - r.val)) <<< r.val := by
    rw [Nat.shiftLeft_eq, ← hpow, Nat.mul_mod_mul_right]
  rw [hhigh, Nat.shiftLeft_add_eq_or_of_lt hlow, ← hhigh, rotl, BitVec.toNat_or, BitVec.toNat_shiftLeft,
    BitVec.toNat_ushiftRight, Nat.shiftLeft_eq, Nat.shiftRight_eq_div_pow]

/-- R85: bit i of n is bit (i + r) mod 32 of the rotated word. -/
theorem rotl_getLsbD (n : Word) (r : RotAmt) {i : Nat} (hi : i < 32) :
    (rotl n r).getLsbD ((i + r.val) % 32) = n.getLsbD i := by
  obtain ⟨r, h0, h32⟩ := r
  rw [rotl_eq, BitVec.getLsbD_rotateLeft_of_le h32]
  rcases Nat.lt_or_ge (i + r) 32 with h | h
  · rw [Nat.mod_eq_of_lt h]
    simp [h]
  · rw [show (i + r) % 32 = i + r - 32 by omega]
    have hlow : i + r - 32 < r := by omega
    simp only [hlow, decide_true, cond_true]
    congr 1
    omega

/-- Settles O2: the formula by the two disjoint halves, the bits by whether bit i leaves the word at the top. -/
theorem rotateMovesEveryBitUp : Obligations.RotateMovesEveryBitUp := by
  unfold Obligations.RotateMovesEveryBitUp
  exact fun n r => ⟨rotl_toNat n r, fun _ hi => rotl_getLsbD n r hi⟩

/-- Two rotates by r and 32 - r move bit i to bit (i + r) mod 32 and from there back to bit i. -/
theorem rotl_rotl_complement (n : Word) {r q : RotAmt} (hq : q.val = 32 - r.val) : rotl (rotl n r) q = n := by
  apply BitVec.eq_of_getLsbD_eq
  intro i hi
  have hback : ((i + r.val) % 32 + q.val) % 32 = i := by
    have hr := r.2.2
    omega
  calc (rotl (rotl n r) q).getLsbD i
      = (rotl (rotl n r) q).getLsbD (((i + r.val) % 32 + q.val) % 32) := by rw [hback]
    _ = (rotl n r).getLsbD ((i + r.val) % 32) := rotl_getLsbD _ q (Nat.mod_lt _ (by decide))
    _ = n.getLsbD i := rotl_getLsbD n r hi

/-- Settles O3: the type bounds the amount, and the two rotates carry each bit back. -/
theorem rotateRoundTrip : Obligations.RotateRoundTrip := by
  unfold Obligations.RotateRoundTrip
  exact fun n r _ => ⟨r.2, rotl_rotl_complement n⟩

/-! ## The round functions (R87 to R89) -/

section
variable (b c d : Word) {i : Nat}

/-- R87: b chooses between c and d. -/
theorem ch_getLsbD (hi : i < 32) : (ch b c d).getLsbD i = if b.getLsbD i then c.getLsbD i else d.getLsbD i := by
  simp only [ch, or32, and32, not32, BitVec.getLsbD_or, BitVec.getLsbD_and, BitVec.getLsbD_not, hi, decide_true,
    Bool.true_and]
  cases b.getLsbD i <;> simp

/-- R88: the parity of three bits. -/
theorem par_getLsbD_iff : (par b c d).getLsbD i = true ↔
    ((b.getLsbD i).toNat + (c.getLsbD i).toNat + (d.getLsbD i).toNat) % 2 = 1 := by
  simp only [par, xor32, BitVec.getLsbD_xor]
  generalize b.getLsbD i = x, c.getLsbD i = y, d.getLsbD i = z
  decide +revert

/-- R89: the majority of three bits. -/
theorem maj_getLsbD_iff : (maj b c d).getLsbD i = true ↔
    2 ≤ (b.getLsbD i).toNat + (c.getLsbD i).toNat + (d.getLsbD i).toNat := by
  simp only [maj, or32, and32, BitVec.getLsbD_or, BitVec.getLsbD_and]
  generalize b.getLsbD i = x, c.getLsbD i = y, d.getLsbD i = z
  decide +revert

end

/-- Settles O4, one function at a time. -/
theorem roundFunctionsBitByBit : Obligations.RoundFunctionsBitByBit := by
  unfold Obligations.RoundFunctionsBitByBit
  exact fun b c d _ hi => ⟨ch_getLsbD b c d hi, par_getLsbD_iff b c d, maj_getLsbD_iff b c d⟩

/-! ## Big-endian packing (R94 to R97) -/

/-- The part put in front of n bits counts 2^n times. -/
theorem append_toNat {m n : Nat} (x : BitVec m) (y : BitVec n) : (x ++ y).toNat = x.toNat * 2 ^ n + y.toNat := by
  rw [BitVec.toNat_append, ← Nat.shiftLeft_add_eq_or_of_lt y.isLt, Nat.shiftLeft_eq]

theorem be32_toNat (s0 s1 s2 s3 : Byte) :
    (be32 s0 s1 s2 s3).toNat = s0.toNat * 2 ^ 24 + s1.toNat * 2 ^ 16 + s2.toNat * 2 ^ 8 + s3.toNat := by
  simp only [be32, append_toNat]
  ring

/-- R95: the first four bytes of eight are the high word. -/
theorem be64_eq_append (s0 s1 s2 s3 s4 s5 s6 s7 : Byte) :
    be64 s0 s1 s2 s3 s4 s5 s6 s7 = be32 s0 s1 s2 s3 ++ be32 s4 s5 s6 s7 := by
  apply BitVec.eq_of_toNat_eq
  simp only [be64, be32, append_toNat]
  ring

/-- R97: the eight bytes are those of the high word, then those of the low word. -/
theorem unbe64_append (hi lo : Word) : unbe64 (hi ++ lo) = unbe32 hi ++ unbe32 lo := by
  have high (k : Nat) : (hi ++ lo).extractLsb' (32 + k) 8 = hi.extractLsb' k 8 := by
    rw [BitVec.extractLsb'_append_eq_of_le (Nat.le_add_right 32 k), Nat.add_sub_cancel_left]
  have low {k : Nat} (h : k + 8 ≤ 32) : (hi ++ lo).extractLsb' k 8 = lo.extractLsb' k 8 :=
    BitVec.extractLsb'_append_eq_of_add_le h
  simp only [unbe64, unbe32, List.cons_append, List.nil_append, List.cons.injEq, and_true]
  exact ⟨high 24, high 16, high 8, high 0, low (by decide), low (by decide), low (by decide), low (by decide)⟩

theorem unbe64_be64 (s0 s1 s2 s3 s4 s5 s6 s7 : Byte) :
    unbe64 (be64 s0 s1 s2 s3 s4 s5 s6 s7) = [s0, s1, s2, s3, s4, s5, s6, s7] := by
  rw [be64_eq_append, unbe64_append, unbe32_be32, unbe32_be32]
  rfl

/-- Every word packs its own four bytes. -/
theorem exists_be32 (v : Word) : ∃ s0 s1 s2 s3, unbe32 v = [s0, s1, s2, s3] ∧ be32 s0 s1 s2 s3 = v :=
  ⟨_, _, _, _, rfl, be32_bytes v⟩

/-- Every 64-bit value packs its own eight bytes: those of its two words. -/
theorem exists_be64 (v : BitVec 64) : ∃ s0 s1 s2 s3 s4 s5 s6 s7, unbe64 v = [s0, s1, s2, s3, s4, s5, s6, s7] ∧
    be64 s0 s1 s2 s3 s4 s5 s6 s7 = v := by
  obtain ⟨hi, lo, rfl⟩ : ∃ hi lo : Word, hi ++ lo = v :=
    ⟨v.extractLsb' 32 32, v.extractLsb' 0 32, BitVec.extractLsb'_append_extractLsb'⟩
  obtain ⟨s0, s1, s2, s3, -, rfl⟩ := exists_be32 hi
  obtain ⟨s4, s5, s6, s7, -, rfl⟩ := exists_be32 lo
  rw [← be64_eq_append]
  exact ⟨s0, s1, s2, s3, s4, s5, s6, s7, unbe64_be64 .., rfl⟩

/-- Settles O5, the eight bytes as two words. -/
theorem bigEndianPackAndUnpack : Obligations.BigEndianPackAndUnpack := by
  unfold Obligations.BigEndianPackAndUnpack
  refine ⟨fun s0 s1 s2 s3 => ⟨be32_toNat .., unbe32_be32 ..⟩, exists_be32, ?value64, exists_be64⟩
  case value64 =>
    intro s0 s1 s2 s3 s4 s5 s6 s7
    refine ⟨?_, unbe64_be64 ..⟩
    rw [be64_eq_append, append_toNat]

/-! ## Counters (R91, R92) -/

theorem len8_toNat (l : Nat) : (len8 l).toNat = l * 8 % 2 ^ 64 := BitVec.toNat_ofNat ..

/-- R92: any count that brings the length to 56 modulo 64 is the zero count modulo 64, and the zero count is below 64. -/
theorem zcount_le {l z : Nat} (hz : (l + 1 + z) % 64 = 56) : zcount l ≤ z := by
  obtain ⟨hlt, hmod⟩ := zcount_mod l
  omega

/-- Settles O6: below 64 the remainder 56 leaves one count. -/
theorem lengthFieldAndZeroCount : Obligations.LengthFieldAndZeroCount := by
  unfold Obligations.LengthFieldAndZeroCount
  intro l
  obtain ⟨hlt, hmod⟩ := zcount_mod l
  refine ⟨len8_toNat l, ?len, hmod, fun _ => zcount_le, ?low, ?high⟩
  case len =>
    rw [len8_toNat]
    omega
  case low | high => omega

end Sys2Proof.Machine

/-! # INIT: result and frame (R101) -/

namespace Sys2Proof.Machine

/-- Settles O16: INIT sets H to IV and the pc to PCPY, and these two updates are the record written out. -/
theorem initLoadsTheConstants : Obligations.InitLoadsTheConstants := by
  unfold Obligations.InitLoadsTheConstants
  intro s
  exact execInit_next.2 rfl

end Sys2Proof.Machine

/-! # The padded message, byte by byte (R105, R113), and the padding micro-operations (R106 to R111) -/

namespace Sys2Proof.Machine

/-! ## The padded message -/

/-- Settles O12: the length is 64 times the number of blocks, and the block count's division gives both bounds. -/
theorem paddedLength : Obligations.PaddedLength := by
  unfold Obligations.PaddedLength
  intro m
  have hlen := pad_length_eq_blocks m
  have hblocks := numBlocks_eq m
  refine ⟨?formula, ?multiple, ?atLeast, ?atMost, hblocks⟩
  case formula => rw [hlen, hblocks]
  case multiple | atLeast | atMost => omega

section
variable (m : List Byte)

/-- R105 (1), (2): the message, and the marker after it, are the first bytes of pad(m). -/
theorem pad_getElem?_le {i : Nat} (hi : i ≤ m.length) : (pad m)[i]? = (m ++ [0x80])[i]? := by
  obtain ⟨-, hmark, -⟩ := pad_take m
  rw [← hmark, List.getElem?_take_of_lt (Nat.lt_succ_of_le hi)]

/-- R105 (3): zeros from the marker to the last eight bytes. -/
theorem pad_getElem?_zero {i : Nat} (hlo : m.length < i) (hhi : i + 8 < (pad m).length) : (pad m)[i]? = some 0x00 := by
  obtain ⟨-, -, hzeros⟩ := pad_take m
  rw [pad_length] at hhi
  rw [← List.getElem?_take_of_lt (show i < m.length + 1 + zcount m.length by omega), hzeros,
    List.getElem?_append_right (by simpa using hlo), List.getElem?_replicate_of_lt]
  simp only [List.length_append, List.length_singleton]
  omega

/-- R105 (4): the last eight bytes are the length field. -/
theorem pad_getElem?_length (k : Nat) : (pad m)[(pad m).length - 8 + k]? = (unbe64 (len8 m.length))[k]? := by
  have hfront : (m ++ [0x80] ++ List.replicate (zcount m.length) (0x00 : Byte)).length = (pad m).length - 8 := by
    simp only [List.length_append, List.length_singleton, List.length_replicate, pad_length, Nat.add_sub_cancel]
  rw [← hfront, pad, List.getElem?_append_right (Nat.le_add_right ..), Nat.add_sub_cancel_left]

end

/-- Byte k of the length field of R110: the bit length's base-256 digits, the most significant first. -/
theorem lengthField_getElem? (l : Nat) {k : Nat} (hk : k < 8) :
    (unbe64 (len8 l))[k]? = some (BitVec.ofNat 8 (l * 8 % 2 ^ 64 / 256 ^ (7 - k))) := by
  rw [unbe64_get _ k hk, len8_toNat]

/-- Settles O13, clause by clause. -/
theorem paddingContract : Obligations.PaddingContract := by
  unfold Obligations.PaddingContract
  intro m
  refine ⟨?message, ?marker, fun i => pad_getElem?_zero m, ?field⟩
  case message =>
    intro i hi
    rw [pad_getElem?_le m hi.le, List.getElem?_append_left hi]
  case marker => rw [pad_getElem?_le m le_rfl, List.getElem?_concat_length]
  case field =>
    intro k hk
    rw [pad_getElem?_length, lengthField_getElem? _ hk]

/-! ## The padding micro-operations -/

/-- A read after n bytes were written at `a`, where `g` says what the bytes are by address. -/
theorem read_writeList_eq_ite {vs : List Byte} {a n : Nat} {g : Nat → Option Byte} (m : Memory) (hn : vs.length = n)
    (hg : ∀ k, k < n → vs[k]? = g (a + k)) (b : Nat) :
    (m.writeList a vs).read b = if a ≤ b ∧ b < a + n then g b else m.read b := by
  rw [read_writeList, hn]
  refine if_ctx_congr Iff.rfl (fun hb => ?_) fun _ => rfl
  rw [hg _ (by omega), Nat.add_sub_cancel' hb.1]

/-- PL does not wrap while it stays inside PBUF. -/
theorem pl_add_of_le_pbufCap {s : State} {pl : BitVec 62} {n : Nat} (h : pl.toNat + n ≤ pbufCap s.msgCap) :
    (pl + BitVec.ofNat 62 n).toNat = pl.toNat + n :=
  pl_add (h.trans (pbufCap_bounds s.msgCap).2.2)

/-- R108: a count below 64 that brings PL to 56 modulo 64 is the one PZER computes. -/
theorem zcountOfPl_eq {pl z : Nat} (hz : z < 64) (h : (pl + z) % 64 = 56) : zcountOfPl pl = z := by
  unfold zcountOfPl
  omega

/-- Settles O17: what is stored is the message, which MSG holds and which leaves room in PBUF. -/
theorem pcpyCopiesTheMessage : Obligations.PcpyCopiesTheMessage := by
  unfold Obligations.PcpyCopiesTheMessage
  intro s hcap hmsg
  obtain ⟨hlen, hholds⟩ := message_bytes hmsg
  obtain ⟨hroom, -, -⟩ := pbufCap_bounds s.msgCap
  refine ⟨_, s.len.setWidth 62, ?pl,
    execPcpy_next.2 ⟨s.message, hlen, .inr hcap, hholds, .inr (by omega), rfl⟩, fun a => ?read⟩
  case pl => exact BitVec.toNat_setWidth_of_le (by decide)
  case read =>
    have hbytes : ∀ k, k < s.len.toNat → s.message[k]? = s.msg.read (0 + k) :=
      fun k hk => (hholds k (hlen.symm ▸ hk)).symm
    simpa using read_writeList_eq_ite s.pbuf hlen hbytes a

/-- Settles O18: one byte is appended at PL. -/
theorem pmrkAppendsTheMarker : Obligations.PmrkAppendsTheMarker := by
  unfold Obligations.PmrkAppendsTheMarker
  intro s pl hpl hroom
  refine ⟨_, pl + 1, pl_add_of_le_pbufCap hroom, execPmrk_next.2 ⟨pl, hpl, hroom, rfl⟩, fun a => ?_⟩
  show (s.pbuf.write pl.toNat 0x80).read a = _
  rw [read_write]
  exact if_congr eq_comm rfl rfl

/-- Settles O19: the given Z is the count PZER computes from PL. -/
theorem pzerAppendsTheZeros : Obligations.PzerAppendsTheZeros := by
  unfold Obligations.PzerAppendsTheZeros
  intro s pl z hpl hz hmod hroom
  obtain rfl := zcountOfPl_eq hz hmod
  refine ⟨_, _, pl_add_of_le_pbufCap hroom, execPzer_next.2 ⟨pl, hpl, .inr hroom, rfl⟩, ?_⟩
  exact read_writeList_eq_ite s.pbuf List.length_replicate (g := fun _ => some 0x00)
    fun _ hk => List.getElem?_replicate_of_lt hk

/-- R111: NBLK does not wrap while PL stays inside PBUF. -/
theorem nblk_of_le_pbufCap {s : State} {n : Nat} (h : n ≤ pbufCap s.msgCap) :
    (BitVec.ofNat 56 (n / 64)).toNat = n / 64 := by
  obtain ⟨-, -, hcap⟩ := pbufCap_bounds s.msgCap
  rw [BitVec.toNat_ofNat]
  omega

/-- PLEN's four updates as one record. -/
theorem setPbuf_setPl_setNblk_setPc (s : State) (m : Memory) (pl : BitVec 62) (n : BitVec 56) (p : PC) :
    (((s.setPbuf m).setPl pl).setNblk n).setPc p =
      { s with pbuf := m, pl := some pl, nblk := some n, pc := p } := rfl

/-- Settles O20: the eight bytes appended at PL are the length field. -/
theorem plenAppendsTheLength : Obligations.PlenAppendsTheLength := by
  unfold Obligations.PlenAppendsTheLength
  intro s pl hpl hroom
  refine ⟨_, _, _, pl_add_of_le_pbufCap hroom, nblk_of_le_pbufCap hroom,
    execPlen_next.2 ⟨pl, hpl, hroom, (setPbuf_setPl_setNblk_setPc ..).symm⟩, ?_⟩
  refine read_writeList_eq_ite s.pbuf (unbe64_length _)
    (g := fun b => some (BitVec.ofNat 8 (s.len.toNat * 8 % 2 ^ 64 / 256 ^ (7 - (b - pl.toNat))))) fun k hk => ?_
  rw [lengthField_getElem? _ hk, Nat.add_sub_cancel_left]

end Sys2Proof.Machine

/-! # The message schedule (R121, R122) and the micro-operations LDW and EXP (R121, R123) -/

namespace Sys2Proof.Machine

/-- R122: the taps' exclusive or, rotated left by one. -/
theorem expandWord_eq (w3 w8 w14 w16 : Word) : expandWord w3 w8 w14 w16 = (w3 ^^^ w8 ^^^ w14 ^^^ w16).rotateLeft 1 :=
  rotl_eq _ rot1

/-- Settles O14: a word below 16 is a word of the block, and a later one is expanded from its taps. -/
theorem scheduleRecurrence : Obligations.ScheduleRecurrence := by
  unfold Obligations.ScheduleRecurrence
  intro x j
  refine ⟨?block, ?recurrence⟩
  case block => exact scheduleWord_lt x
  case recurrence =>
    intro hj
    rw [scheduleWord_ge x hj, expandWord_eq]

/-- The two updates of LDW and EXP as one record: W[j] is written and the loop over j goes on or ends. -/
theorem setW_setPc_loopPc (s : State) (j : BitVec 7) (v : Word) (op : BitVec 4) (last : Nat) (after : PC) :
    (s.setW j.toNat v).setPc (loopPc op last after s.pc.blk j) =
      { s with
        w := (s.setW j.toNat v).w
        pc := if j.toNat < last then ⟨op, s.pc.blk, j + 1⟩ else after } := rfl

/-- Settles O21: the four bytes load as one big-endian word, and it is written to W[j]. -/
theorem ldwLoadsABlockWord : Obligations.LdwLoadsABlockWord := by
  unfold Obligations.LdwLoadsABlockWord
  intro s j s0 s1 s2 s3 hj hroom h0 h1 h2 h3
  have hload : load32 .pbuf (pbufCap s.msgCap) s.pbuf (ldwAddr s.pc.blk j) = .ok (be32 s0 s1 s2 s3) :=
    load32_ok.2 ⟨hroom, s0, s1, s2, s3, h0, h1, h2, h3, rfl⟩
  exact ⟨_, execLdw_next.2 ⟨hj, _, hload, (setW_setPc_loopPc ..).symm⟩, setW_get s j.toNat _⟩

/-- Settles O22: the four taps hold values, and the word expanded from them is written to W[j]. -/
theorem expDerivesAScheduleWord : Obligations.ExpDerivesAScheduleWord := by
  unfold Obligations.ExpDerivesAScheduleWord
  intro s j w3 w8 w14 w16 hlo hhi h3 h8 h14 h16
  rw [← expandWord_eq]
  exact ⟨_, execExp_next.2 ⟨⟨hlo, hhi⟩, w3, w8, w14, w16, wAt_iff.2 h3, wAt_iff.2 h8, wAt_iff.2 h14, wAt_iff.2 h16,
    (setW_setPc_loopPc ..).symm⟩, setW_get s j.toNat _⟩

end Sys2Proof.Machine

/-! # SEED, the four RND and FOLD: result and frame (R131 to R138) -/

namespace Sys2Proof.Machine

/-- Settles O23: SEED's two updates are the record written out. -/
theorem seedCopiesTheChainingState : Obligations.SeedCopiesTheChainingState := by
  unfold Obligations.SeedCopiesTheChainingState
  intro s h0 h1 h2 h3 h4 hH
  exact execSeed_next.2 ⟨⟨h0, h1, h2, h3, h4⟩, hH, rfl⟩

/-- R132: the round step of every RND form, with its round function and constant. -/
theorem roundStep_eq_afterRound {s : State} {j : BitVec 7} {a b c d e w : Word} (hv : s.workIs ⟨a, b, c, d, e⟩)
    (hw : s.wAt j.toNat = some w) (f : Word → Word → Word → Word) (k : Word) :
    roundStep f k j s = .next (afterRound s j (a.rotateLeft 5 + f b c d + e + k + w) a b c d) := by
  refine roundStep_next.2 ⟨_, w, hv, hw, ?_⟩
  have ha : a.rotateLeft 5 = rotl a rot5 := (rotl_eq a rot5).symm
  have hb : b.rotateLeft 30 = rotl b rot30 := (rotl_eq b rot30).symm
  rw [afterRound, ha, hb]
  rfl

/-- Settles O24: the four forms are one round step, each in the range of its row. -/
theorem roundMicroOperations : Obligations.RoundMicroOperations := by
  unfold Obligations.RoundMicroOperations
  intro s j a b c d e w ha hb hc hd he hw
  have round := roundStep_eq_afterRound (s := s) ⟨ha, hb, hc, hd, he⟩ (wAt_iff.2 hw)
  exact ⟨fun hj => execRndCh_next.2 ⟨hj, round ch k0⟩,
    fun hlo hhi => execRndPar1_next.2 ⟨⟨hlo, hhi⟩, round par k1⟩,
    fun hlo hhi => execRndMaj_next.2 ⟨⟨hlo, hhi⟩, round maj k2⟩,
    fun hlo hhi => execRndPar2_next.2 ⟨⟨hlo, hhi⟩, round par k3⟩⟩

/-- Settles O25: the test of R164 picks the next pc. -/
theorem foldAddsIntoTheChainingState : Obligations.FoldAddsIntoTheChainingState := by
  unfold Obligations.FoldAddsIntoTheChainingState
  intro s h0 h1 h2 h3 h4 a b c d e n hH ha hb hc hd he hn t
  have fold : exec .fold s = .next (t (foldPc s.pc.blk n)) :=
    execFold_next.2 ⟨⟨h0, h1, h2, h3, h4⟩, ⟨a, b, c, d, e⟩, n, hH, ⟨ha, hb, hc, hd, he⟩, hn, rfl⟩
  refine ⟨fun hmore => ?more, fun hlast => ?last⟩
  case more => rw [fold, foldPc, if_pos hmore]
  case last => rw [fold, foldPc, if_neg (by omega)]

end Sys2Proof.Machine

/-! # The run of a block computes compress (R139)

The block may be any 64 bytes and H any five words, so the invariant of whole hashes does not apply. Two loops of 80 steps,
one over the words of the schedule (LDW, EXP) and one over the rounds (RND), stand around SEED and before FOLD. -/

namespace Sys2Proof.Machine

/-! ## Runs as loops -/

/-- A run of n steps, each of which takes the loop's invariant to the next index. -/
theorem run_loop {P : Nat → State → Prop} {n : Nat}
    (hstep : ∀ k, k < n → ∀ s, P k s → ∃ t, step s = .next t ∧ P (k + 1) t) {s : State} (h0 : P 0 s) :
    ∃ t, Sys2Proof.core.run n s = .next t ∧ P n t := by
  induction n with
  | zero => exact ⟨s, rfl, h0⟩
  | succ n ih =>
    obtain ⟨t, hrun, ht⟩ := ih fun k hk => hstep k (hk.trans n.lt_succ_self)
    obtain ⟨u, hu, hP⟩ := hstep n n.lt_succ_self t ht
    exact ⟨u, (run_add hrun).trans (run_succ hu), hP⟩

/-- The counted loop over j (R163) at index n. -/
theorem loopPc_ofNat (op : BitVec 4) (last : Nat) (after : PC) (blk : BitVec 56) {n : Nat} (hn : n < 128) :
    loopPc op last after blk (BitVec.ofNat 7 n) = if n < last then ⟨op, blk, BitVec.ofNat 7 (n + 1)⟩ else after := by
  rw [loopPc, BitVec.toNat_ofNat, Nat.mod_eq_of_lt hn, BitVec.ofNat_add]
  rfl

theorem read_of_holds {m : Memory} {a : Nat} {x : List Byte} (h : m.holds a x) {k : Nat} (hk : k < x.length) :
    m.read (a + k) = some (x.getD k 0) := by
  rw [h k hk, List.getD_eq_getElem?_getD, List.getElem?_eq_getElem hk, Option.getD_some]

/-! ## What stands unchanged until FOLD -/

/-- H = h, the block x stands in PBUF at 64 * blk, NBLK holds a value, and the sequencer goes on alone. -/
def State.blockReady (s : State) (blk : BitVec 56) (h : Words5) (x : List Byte) : Prop :=
  (s.busy = true ∧ s.turns = []) ∧ s.hIs h ∧
    (x.length = 64 ∧ s.pbuf.holds (64 * blk.toNat) x ∧ 64 * blk.toNat + 64 ≤ pbufCap s.msgCap) ∧ ∃ n, s.nblk = some n

section
variable {s : State} {blk : BitVec 56} {h : Words5} {x : List Byte}

@[simp] theorem blockReady_setPc (p : PC) : (s.setPc p).blockReady blk h x ↔ s.blockReady blk h x := Iff.rfl
@[simp] theorem blockReady_setW (j : Nat) (v : Word) : (s.setW j v).blockReady blk h x ↔ s.blockReady blk h x := Iff.rfl
@[simp] theorem blockReady_setTemp (v : Word) : (s.setTemp v).blockReady blk h x ↔ s.blockReady blk h x := Iff.rfl
@[simp] theorem blockReady_setWork (v : Words5) : (s.setWork v).blockReady blk h x ↔ s.blockReady blk h x := Iff.rfl

/-- The step at a pc of the block runs the micro-operation its word decodes to. -/
theorem step_at {i : Instr} {op : BitVec 4} {j : BitVec 7} (hs : s.blockReady blk h x) (hpc : s.pc = ⟨op, blk, j⟩)
    (hd : decodeUop (uopWord op j) = .ok i) : step s = exec i s := by
  obtain ⟨⟨hbusy, hturns⟩, -⟩ := hs
  rw [step_nil hturns, if_pos hbusy, runUop_at (by rw [hpc]) (by rw [hpc]) hd]

/-- R121: the word LDW loads from a block that stands in PBUF is a word of its schedule. -/
theorem load_word_of_blockReady (hs : s.blockReady blk h x) {j : BitVec 7} (hj : j.toNat ≤ 15) :
    load32 .pbuf (pbufCap s.msgCap) s.pbuf (ldwAddr blk j) = .ok (scheduleWord x j.toNat) := by
  obtain ⟨-, -, ⟨hlen, hholds, hroom⟩, -⟩ := hs
  have byte (k : Nat) (hk : k < 4) : s.pbuf.read (ldwAddr blk j + k) = some (x.getD (4 * j.toNat + k) 0) := by
    rw [ldwAddr, Nat.add_assoc]
    exact read_of_holds hholds (by omega)
  exact load32_ok.2 ⟨by rw [ldwAddr]; omega, _, _, _, _, byte 0 (by decide), byte 1 (by decide), byte 2 (by decide),
    byte 3 (by decide), scheduleWord_lt x (by omega)⟩

/-! ## One step of each micro-operation of the block -/

section
variable {j : BitVec 7} {v : Words5}

theorem ldw_step (hs : s.blockReady blk h x) (hpc : s.pc = ⟨Op.ldw, blk, j⟩) (hj : j.toNat ≤ 15) :
    step s = .next ((s.setW j.toNat (scheduleWord x j.toNat)).setPc (loopPc Op.ldw 15 ⟨Op.exp, blk, 16⟩ blk j)) := by
  rw [step_at hs hpc (decodeUop_ldw hj)]
  exact execLdw_next.2 ⟨hj, _, by rw [hpc]; exact load_word_of_blockReady hs hj, by rw [hpc]⟩

theorem exp_step (hs : s.blockReady blk h x) (hpc : s.pc = ⟨Op.exp, blk, j⟩) (hlo : 16 ≤ j.toNat) (hhi : j.toNat ≤ 79)
    (hw : s.wIs j.toNat x) :
    step s = .next ((s.setW j.toNat (scheduleWord x j.toNat)).setPc (loopPc Op.exp 79 ⟨Op.seed, blk, 0⟩ blk j)) := by
  rw [step_at hs hpc (decodeUop_exp hlo hhi)]
  exact execExp_next.2 ⟨⟨hlo, hhi⟩, _, _, _, _, hw _ (by omega), hw _ (by omega), hw _ (by omega), hw _ (by omega),
    by rw [hpc, scheduleWord_ge x hlo]⟩

theorem seed_step (hs : s.blockReady blk h x) (hpc : s.pc = ⟨Op.seed, blk, 0⟩) :
    step s = .next ((s.setWork h).setPc ⟨Op.rnd, blk, 0⟩) := by
  have ⟨_, hH, _⟩ := hs
  rw [step_at (i := .seed) hs hpc rfl]
  exact execSeed_next.2 ⟨h, hH, by rw [hpc]⟩

theorem rnd_step (hs : s.blockReady blk h x) (hpc : s.pc = ⟨Op.rnd, blk, j⟩) (hj : j.toNat ≤ 79) (hw : s.wIs 80 x)
    (hv : s.workIs v) : ∃ temp, step s = .next (((s.setTemp temp).setWork
      (roundWords (stageFn (stage j.toNat)) (stageK (stage j.toNat)) (scheduleWord x j.toNat) v)).setPc
      (loopPc Op.rnd 79 ⟨Op.fold, blk, 0⟩ blk j)) := by
  obtain ⟨i, hi⟩ := decodeRnd_isOk hj
  rw [step_at hs hpc ((decodeUop_rnd j).trans hi), exec_of_decodeRnd hi]
  exact ⟨_, roundStep_next.2 ⟨v, _, hv, hw _ (by omega), by rw [hpc]⟩⟩

theorem fold_step (hs : s.blockReady blk h x) (hpc : s.pc = ⟨Op.fold, blk, 0⟩) (hv : s.workIs v) :
    ∃ t, step s = .next t ∧ t.hIs (foldWords h v) := by
  have ⟨_, hH, _, n, hn⟩ := hs
  rw [step_at (i := .fold) hs hpc rfl]
  exact ⟨_, execFold_next.2 ⟨h, v, n, hH, hv, hn, rfl⟩, rfl⟩

end

/-! ## The schedule: LDW 0 to 15 and EXP 16 to 79 -/

/-- The pc before word n of the schedule is written; SEED follows the last (R161). -/
def schedulePc (blk : BitVec 56) (n : Nat) : PC :=
  if n < 16 then ⟨Op.ldw, blk, BitVec.ofNat 7 n⟩
  else if n < 80 then ⟨Op.exp, blk, BitVec.ofNat 7 n⟩ else ⟨Op.seed, blk, 0⟩

theorem loopPc_ldw {n : Nat} (hn : n < 16) :
    loopPc Op.ldw 15 ⟨Op.exp, blk, 16⟩ blk (BitVec.ofNat 7 n) = schedulePc blk (n + 1) := by
  rw [loopPc_ofNat _ _ _ _ (by omega), schedulePc]
  by_cases hlt : n < 15
  · rw [if_pos hlt, if_pos (by omega)]
  · obtain rfl : n = 15 := by omega
    rfl

theorem loopPc_exp {n : Nat} (hlo : 16 ≤ n) (hhi : n < 80) :
    loopPc Op.exp 79 ⟨Op.seed, blk, 0⟩ blk (BitVec.ofNat 7 n) = schedulePc blk (n + 1) := by
  rw [loopPc_ofNat _ _ _ _ (by omega), schedulePc, if_neg (show ¬n + 1 < 16 by omega)]
  exact if_congr (by omega) rfl rfl

/-- The sequencer has written the first n words of the schedule. -/
def State.scheduled (blk : BitVec 56) (h : Words5) (x : List Byte) (n : Nat) (s : State) : Prop :=
  s.blockReady blk h x ∧ s.pc = schedulePc blk n ∧ s.wIs n x

theorem scheduled_succ {n : Nat} (hn : n < 80) (hs : s.scheduled blk h x n) :
    ∃ t, step s = .next t ∧ t.scheduled blk h x (n + 1) := by
  obtain ⟨hready, hpc, hw⟩ := hs
  have hj : (BitVec.ofNat 7 n).toNat = n := Nat.mod_eq_of_lt (by omega)
  have hnext : step s = .next ((s.setW n (scheduleWord x n)).setPc (schedulePc blk (n + 1))) := by
    by_cases hlt : n < 16
    · rw [schedulePc, if_pos hlt] at hpc
      rw [ldw_step hready hpc (by omega), hj, loopPc_ldw hlt]
    · rw [schedulePc, if_neg hlt, if_pos hn] at hpc
      rw [exp_step hready hpc (by omega) (by omega) (by rwa [hj]), hj, loopPc_exp (by omega) hn]
  exact ⟨_, hnext, by simpa using hready, rfl, wIs_setW hw hn⟩

/-! ## The rounds: RND 0 to 79 -/

/-- The pc before round n; FOLD follows the last (R161). -/
def roundPc (blk : BitVec 56) (n : Nat) : PC :=
  if n < 80 then ⟨Op.rnd, blk, BitVec.ofNat 7 n⟩ else ⟨Op.fold, blk, 0⟩

theorem loopPc_rnd {n : Nat} (hn : n < 80) :
    loopPc Op.rnd 79 ⟨Op.fold, blk, 0⟩ blk (BitVec.ofNat 7 n) = roundPc blk (n + 1) := by
  rw [loopPc_ofNat _ _ _ _ (by omega), roundPc]
  exact if_congr (by omega) rfl rfl

/-- The whole schedule stands in W, and A to E are the working variables before round n. -/
def State.rounded (blk : BitVec 56) (h : Words5) (x : List Byte) (n : Nat) (s : State) : Prop :=
  s.blockReady blk h x ∧ s.pc = roundPc blk n ∧ s.wIs 80 x ∧ s.workIs (roundsUpTo (scheduleWord x) h n)

/-- SEED starts the rounds from h (R131). -/
theorem rounded_zero (hs : s.scheduled blk h x 80) : ∃ t, step s = .next t ∧ t.rounded blk h x 0 := by
  obtain ⟨hready, hpc, hw⟩ := hs
  exact ⟨_, seed_step hready hpc, by simpa using hready, rfl, hw, rfl, rfl, rfl, rfl, rfl⟩

theorem rounded_succ {n : Nat} (hn : n < 80) (hs : s.rounded blk h x n) :
    ∃ t, step s = .next t ∧ t.rounded blk h x (n + 1) := by
  obtain ⟨hready, hpc, hw, hv⟩ := hs
  have hj : (BitVec.ofNat 7 n).toNat = n := Nat.mod_eq_of_lt (by omega)
  rw [roundPc, if_pos hn] at hpc
  obtain ⟨temp, hnext⟩ := rnd_step hready hpc (by omega) hw hv
  rw [hj, loopPc_rnd hn] at hnext
  exact ⟨_, hnext, by simpa using hready, rfl, hw, rfl, rfl, rfl, rfl, rfl⟩

end

/-- Settles O54: 80 steps write the schedule, SEED copies h, 80 steps run the rounds, and FOLD adds h. -/
theorem blockRunIsCompress : Obligations.BlockRunIsCompress := by
  unfold Obligations.BlockRunIsCompress
  intro s h x n hbusy hturns hop hj hH hlen hholds hroom hn
  have hpc : s.pc = ⟨0x6, s.pc.blk, 0⟩ := by rw [← hop, ← hj]
  have hstart : s.scheduled s.pc.blk h x 0 :=
    ⟨⟨⟨hbusy, hturns⟩, hH, ⟨hlen, hholds, hroom⟩, n, hn⟩, hpc, wIs_zero s x⟩
  obtain ⟨s₁, hschedule, hs₁⟩ := run_loop (fun _ hk _ => scheduled_succ hk) hstart
  obtain ⟨s₂, hseed, hs₂⟩ := rounded_zero hs₁
  obtain ⟨s₃, hrounds, hready, hpc, -, hv⟩ := run_loop (fun _ hk _ => rounded_succ hk) hs₂
  obtain ⟨t, hfold, ht⟩ := fold_step hready hpc hv
  refine ⟨t, ?_, ht⟩
  calc Sys2Proof.core.run (80 + (80 + 1 + 1)) s = Sys2Proof.core.run (80 + 1 + 1) s₁ := run_add hschedule
    _ = Sys2Proof.core.run (80 + 1) s₂ := run_succ hseed
    _ = Sys2Proof.core.run 1 s₃ := run_add hrounds
    _ = .next t := run_succ hfold

end Sys2Proof.Machine

/-! # The digest and its hexadecimal string (R98, R99, R153) and the micro-operations SER, HEX and FIN (R150 to R154) -/

namespace Sys2Proof.Machine

/-! ## Digits of bytes and of chaining words -/

/-- R98: the characters are the codes of 0 to 9 and of a to f. -/
theorem hexChar_range (n : BitVec 4) :
    (0x30 ≤ (hexChar n).toNat ∧ (hexChar n).toNat ≤ 0x39) ∨ (0x61 ≤ (hexChar n).toNat ∧ (hexChar n).toNat ≤ 0x66) := by
  revert n; decide

/-- R99: nothing but digits stands in a rendered byte sequence. -/
theorem exists_hexChar_of_mem_hexBytes {xs : List Byte} {c : Byte} (hc : c ∈ hexBytes xs) : ∃ n, c = hexChar n := by
  induction xs with
  | nil => exact absurd hc List.not_mem_nil
  | cons x xs ih =>
    rcases List.mem_append.1 hc with hbyte | htail
    · obtain hhigh | hlow : c = hexChar _ ∨ c = hexChar _ := by simpa [hexByte] using hbyte
      · exact ⟨_, hhigh⟩
      · exact ⟨_, hlow⟩
    · exact ih htail

/-- R99, by position: character a is a digit of byte a / 2, the high one first. -/
theorem hexBytes_getElem? {xs : List Byte} {a : Nat} {x : Byte} (h : xs[a / 2]? = some x) :
    (hexBytes xs)[a]? = some (hexChar (x.extractLsb' (4 - 4 * (a % 2)) 4)) := by
  obtain ⟨hhigh, hlow⟩ := hexBytes_get h
  rcases Nat.mod_two_eq_zero_or_one a with hpar | hpar
  · rw [show 2 * (a / 2) = a by omega] at hhigh
    rwa [hpar]
  · rw [show 2 * (a / 2) + 1 = a by omega] at hlow
    rwa [hpar]

/-- The character of R98 for either digit of a byte, by division. -/
theorem hexChar_digit (x : Byte) (a : Nat) : hexChar (x.extractLsb' (4 - 4 * (a % 2)) 4) =
    BitVec.ofNat 8 (
      let n := if a % 2 = 0 then x.toNat / 16 else x.toNat % 16
      if n ≤ 9 then 0x30 + n else 0x57 + n) := by
  have hdigit : (x.extractLsb' (4 - 4 * (a % 2)) 4).toNat = if a % 2 = 0 then x.toNat / 16 else x.toNat % 16 := by
    rw [BitVec.extractLsb'_toNat, Nat.shiftRight_eq_div_pow]
    rcases Nat.mod_two_eq_zero_or_one a with hpar | hpar
    · rw [hpar, if_pos rfl]; omega
    · rw [hpar, if_neg one_ne_zero]; omega
  rw [hexChar_eq, hdigit]

/-- A field of a field is a field. -/
theorem extractLsb'_extractLsb'_of_le {w m n s t : Nat} (x : BitVec w) (h : t + n ≤ m) :
    (x.extractLsb' s m).extractLsb' t n = x.extractLsb' (s + t) n := by
  ext i hi
  rw [BitVec.getElem_extractLsb', BitVec.getLsbD_extractLsb', BitVec.getElem_extractLsb', Nat.add_assoc,
    decide_eq_true (by omega), Bool.true_and]

/-- R150, by bits: byte k of chaining word i. -/
theorem digestBytes_getElem? (v : Words5) {i k : Nat} (hi : i < 5) (hk : k < 4) :
    (digestBytes v)[4 * i + k]? = some ((v.toList.getD i 0).extractLsb' (24 - 8 * k) 8) := by
  rw [← unbe32_getElem? _ hk, ← digestBytes_slice v hi, List.getElem?_take_of_lt hk, List.getElem?_drop]

/-- Digit k of chaining word i stands at character 8i + k: it is a digit of byte k / 2 of the word. -/
theorem hexBytes_digestBytes_getElem? (v : Words5) {i k : Nat} (hi : i < 5) (hk : k < 8) :
    (hexBytes (digestBytes v))[8 * i + k]? = some (hexChar ((v.toList.getD i 0).extractLsb' (28 - 4 * k) 4)) := by
  have hbyte := digestBytes_getElem? v hi (show k / 2 < 4 by omega)
  rw [show 4 * i + k / 2 = (8 * i + k) / 2 by omega] at hbyte
  rw [hexBytes_getElem? hbyte, extractLsb'_extractLsb'_of_le _ (by omega),
    show 24 - 8 * (k / 2) + (4 - 4 * ((8 * i + k) % 2)) = 28 - 4 * k by omega]

/-- Settles O15: a hash is the rendering of its five chaining words. -/
theorem hashIsFortyLowercaseHexDigits : Obligations.HashIsFortyLowercaseHexDigits := by
  unfold Obligations.HashIsFortyLowercaseHexDigits
  intro m
  refine ⟨hashOf_length m, ?lowercase, fun i k => hexBytes_digestBytes_getElem? _⟩
  case lowercase =>
    intro c hc
    obtain ⟨n, rfl⟩ := exists_hexChar_of_mem_hexBytes hc
    exact hexChar_range n

/-! ## The digest micro-operations -/

/-- A read after n bytes were written from address 0, where `g` says what the bytes are by address. -/
theorem read_writeList_zero {vs : List Byte} {n : Nat} {g : Nat → Option Byte} (m : Memory) (hn : vs.length = n)
    (hg : ∀ k, k < n → vs[k]? = g k) (b : Nat) : (m.writeList 0 vs).read b = if b < n then g b else m.read b := by
  simpa using read_writeList_eq_ite (a := 0) m hn (by simpa using hg) b

/-- SER's two updates as one record. -/
theorem setDigest_setPc (s : State) (m : Memory) (p : PC) :
    (s.setDigest m).setPc p = { s with digest := m, pc := p } := rfl

/-- HEX's two updates as one record. -/
theorem setHexstr_setPc (s : State) (m : Memory) (p : PC) :
    (s.setHexstr m).setPc p = { s with hexstr := m, pc := p } := rfl

/-- Settles O27: the twenty bytes written from address 0 are those of the five words. -/
theorem serSerializesTheChainingState : Obligations.SerSerializesTheChainingState := by
  unfold Obligations.SerSerializesTheChainingState
  intro s h0 h1 h2 h3 h4 hH
  exact ⟨_, execSer_next.2 ⟨⟨h0, h1, h2, h3, h4⟩, hH, (setDigest_setPc ..).symm⟩,
    read_writeList_zero s.digest (digestBytes_length _) (digestBytes_get ⟨h0, h1, h2, h3, h4⟩)⟩

/-- Settles O28: HEX loads the twenty bytes and writes the two characters of each. -/
theorem hexRendersTheDigest : Obligations.HexRendersTheDigest := by
  unfold Obligations.HexRendersTheDigest
  intro s x hx
  have hget (n : Nat) (hn : n < 20) : ((List.range 20).map x)[n]? = some (x n) := by simp [hn]
  have hlen : ((List.range 20).map x).length = 20 := by simp
  have hholds : s.digest.holds 0 ((List.range 20).map x) := fun n hn => by
    rw [hlen] at hn
    rw [hget n hn, Nat.zero_add, hx n hn]
  refine ⟨_, execHex_next.2 ⟨_, hlen, hholds, (setHexstr_setPc ..).symm⟩, ?_⟩
  refine read_writeList_zero s.hexstr (by rw [hexBytes_length, hlen]) fun a ha => ?_
  rw [hexBytes_getElem? (hget (a / 2) (by omega)), hexChar_digit]

/-- Settles O29: FIN's three updates are the record written out. -/
theorem finEndsTheHash : Obligations.FinEndsTheHash := by
  unfold Obligations.FinEndsTheHash
  intro s
  exact execFin_next.2 rfl

end Sys2Proof.Machine

/-! # Every step keeps the invariant (R166, R236)

A turn of the sequencer is one of the micro-operations before FIN, which `runUop_keeps_inv` covers, or FIN. A turn of the
host is a reset, a read, which the invariant does not see, or a write, whose command acts only on a resting core. -/

namespace Sys2Proof.Machine

section
variable {s t : State}

theorem atOp_idle (hop : s.pc.op = Op.idle) : s.atOp ↔ s.pc = PC.idle := by
  unfold State.atOp; rw [hop]; rfl

theorem atOp_of_pc_idle (hpc : s.pc = PC.idle) : s.atOp := (atOp_idle (by rw [hpc]; rfl)).2 hpc

theorem pc_of_rest (h : s.Inv) (hrest : s.busy = false) : s.pc = PC.idle :=
  (atOp_idle (h.rest.1 hrest)).1 h.phase

/-! ## The sequencer's turn -/

/-- FIN leaves the result for the message (R154, R155). -/
theorem inv_endHash (h : s.Inv) (hop : s.pc.op = Op.fin) : (endHash s).Inv := by
  obtain ⟨-, hdigest, hhex⟩ := fin_ends h.phase hop
  exact {
    wf := h.wf
    bounds := h.bounds
    message := h.message
    rest := iff_of_true rfl rfl
    result := fun _ => ⟨rfl, s.message, message_length_le h, hdigest, hhex⟩
    phase := atOp_of_pc_idle rfl }

theorem runUop_next_inv (h : s.Inv) (hbusy : s.busy = true) (ht : runUop s = .next t) : t.Inv := by
  by_cases hfin : s.pc.op = Op.fin
  · obtain ⟨hrun, -⟩ := fin_ends h.phase hfin
    obtain rfl := Host.Outcome.next.inj (hrun.symm.trans ht)
    exact inv_endHash h hfin
  · obtain ⟨u, hrun, hinv, -⟩ := runUop_keeps_inv h hbusy hfin
    obtain rfl := Host.Outcome.next.inj (hrun.symm.trans ht)
    exact hinv

/-! ## The host's commands -/

/-- R184: an accepted START needs no more than the memories and the message. -/
theorem inv_beginHash (h : s.Inv) : (beginHash s).Inv where
  wf := h.wf
  bounds := h.bounds
  message := h.message
  rest := iff_of_false Bool.noConfusion (show Op.init ≠ Op.idle by decide)
  result := Bool.false_ne_true.elim
  phase := (rfl : (beginHash s).pc = ⟨Op.init, 0, 0⟩)

/-- R183: at rest the pc alone matters, and it stays. -/
theorem inv_clearMessage (h : s.Inv) (hrest : s.busy = false) : (clearMessage s).Inv :=
  have hpc := pc_of_rest h hrest
  { wf := h.wf
    bounds := h.bounds
    message := ⟨Nat.zero_le _, fun i hi => absurd hi (Nat.not_lt_zero i)⟩
    rest := h.rest
    result := h.result
    phase := atOp_of_pc_idle (s := clearMessage s) hpc }

theorem execStart_keeps_inv {c : Bool} (h : s.Inv) (ht : execStart c s = .next t) : t.Inv := by
  obtain rfl := execStart_next.1 ht
  split_ifs with hbusy hclear
  · exact h
  · exact inv_beginHash (inv_clearMessage h (by simpa using hbusy))
  · exact inv_beginHash h

theorem execClear_keeps_inv (h : s.Inv) (ht : execClear s = .next t) : t.Inv := by
  obtain rfl := execClear_next.1 ht
  split_ifs with hbusy
  · exact h
  · exact inv_clearMessage h (by simpa using hbusy)

/-- LEN does not wrap below MSG_CAP. -/
theorem len_succ (hroom : s.len.toNat < s.msgCap) : (s.len + 1).toNat = s.len.toNat + 1 := by
  have := s.msgCap.isLt
  rw [BitVec.toNat_add]
  exact Nat.mod_eq_of_lt (by simp; omega)

/-- R186: the byte pushed is the one that MSG[0..LEN + 1) has more. -/
theorem execPush_keeps_inv {b : Byte} (h : s.Inv) (ht : execPush b s = .next t) : t.Inv := by
  obtain rfl := execPush_next.1 ht
  split_ifs with hp
  · obtain ⟨hrest, hroom⟩ := hp
    obtain ⟨hwf, hbounds⟩ := memoriesOk_writeMsg ⟨h.wf, h.bounds⟩ hroom b
    have hpc := pc_of_rest h hrest
    refine ⟨hwf, hbounds, ⟨(len_succ hroom).trans_le hroom, fun i hi => ?readable⟩, h.rest, h.result,
      atOp_of_pc_idle hpc⟩
    case readable =>
      have hi' : i < s.len.toNat + 1 := len_succ hroom ▸ hi
      show ((s.msg.write s.len.toNat b).read i).isSome
      rw [read_write]
      split_ifs with hlast
      · rfl
      · exact h.message.2 i (by omega)
  · exact h

/-- R66: what a host write can carry. -/
theorem decodeWrite_command {off : Nat} {v : Word} {i : Instr} (h : decodeWrite off v = .ok i) :
    (∃ c, i = .start c) ∨ i = .clear ∨ ∃ b, i = .push b := by
  unfold decodeWrite at h
  split_ifs at h <;> obtain rfl := Except.ok.inj h
  · exact .inl ⟨_, rfl⟩
  · exact .inr (.inl rfl)
  · exact .inr (.inr ⟨_, rfl⟩)

/-! ## The host's turn -/

theorem inv_toReset (s : State) : s.toReset.Inv := inv_hostSide (invariantAtReset s.msgCap) s.turns s.rdata s.freeIdx

/-- A read moves the host's own side alone. -/
theorem hostRead_keeps_inv {off : Nat} (h : s.Inv) (ht : hostRead off s = .next t) : t.Inv := by
  cases hr : resultReg off with
  | none =>
    rw [hostRead_plain hr] at ht
    obtain rfl := Host.Outcome.next.inj ht
    exact inv_setRdata h _
  | some r =>
    cases hd : s.done with
    | true =>
      rw [hostRead_result hr hd, onOk_next] at ht
      obtain ⟨v, -, hv⟩ := ht
      obtain rfl := Host.Outcome.next.inj hv
      exact inv_setRdata h v
    | false =>
      rw [hostRead_free hr hd] at ht
      obtain rfl := Host.Outcome.next.inj ht
      exact inv_bumpFree (inv_setRdata h _)

theorem hostWrite_keeps_inv {off : Nat} {v : Word} (h : s.Inv) (ht : hostWrite off v s = .next t) : t.Inv := by
  cases hw : decodeWrite off v with
  | error f =>
    rw [hostWrite_error hw] at ht
    obtain rfl := Host.Outcome.next.inj ht
    exact h
  | ok i =>
    rw [hostWrite_ok hw] at ht
    obtain ⟨c, rfl⟩ | rfl | ⟨b, rfl⟩ := decodeWrite_command hw
    · exact execStart_keeps_inv h ht
    · exact execClear_keeps_inv h ht
    · exact execPush_keeps_inv h ht

theorem hostStep_keeps_inv {a : HostAction} (h : s.Inv) (ht : hostStep a s = .next t) : t.Inv := by
  cases a with
  | reset =>
    obtain rfl := Host.Outcome.next.inj ht
    exact inv_toReset s
  | read off size =>
    cases hlegal : legalAccess off size with
    | true => exact hostRead_keeps_inv h (hostStep_read hlegal s ▸ ht)
    | false => rw [hostStep_read_refused hlegal] at ht; cases ht
  | write off size v =>
    cases hlegal : legalAccess off size with
    | true => exact hostWrite_keeps_inv h (hostStep_write hlegal s ▸ ht)
    | false => rw [hostStep_write_refused hlegal] at ht; cases ht

end

/-- Settles O51, by whose turn it is; the invariant does not see that the turn is used up. -/
theorem stepKeepsTheInvariant : Obligations.StepKeepsTheInvariant := by
  unfold Obligations.StepKeepsTheInvariant
  intro s t h ht
  rcases hturns : s.turns with _ | ⟨_ | a, ts⟩
  case nil =>
    rw [step_nil hturns] at ht
    split_ifs at ht with hbusy
    exact runUop_next_inv h hbusy ht
  case cons.core =>
    rw [step_core hturns] at ht
    split_ifs at ht with hbusy
    · exact runUop_next_inv (inv_setTurns h ts) hbusy ht
    · obtain rfl := Host.Outcome.next.inj ht
      exact inv_setTurns h ts
  case cons.host =>
    rw [step_host hturns] at ht
    exact hostStep_keeps_inv (inv_setTurns h ts) ht

end Sys2Proof.Machine

/-! # The sequencer alone: a whole hash, step by step (R160, R161, R167) -/

namespace Sys2Proof.Machine

theorem KeepsMessageAndFlags.refl (s : State) : KeepsMessageAndFlags s s := ⟨rfl, rfl, rfl, rfl, rfl, rfl⟩

theorem KeepsMessageAndFlags.trans {s t u : State} (h : KeepsMessageAndFlags s t) (h' : KeepsMessageAndFlags t u) :
    KeepsMessageAndFlags s u :=
  ⟨h'.msgCap.trans h.msgCap, h'.msg.trans h.msg, h'.len.trans h.len, h'.busy.trans h.busy, h'.done.trans h.done,
    h'.turns.trans h.turns⟩

/-- The sequencer has counted k micro-operations since `s`, none of them FIN. -/
def State.afterUops (s : State) (k : Nat) (t : State) : Prop :=
  t.Inv ∧ KeepsMessageAndFlags s t ∧
    t.pc.stepsLeft (numBlocks s.message) + k = s.pc.stepsLeft (numBlocks s.message)

section
variable {s t : State} {k : Nat}

theorem afterUops_succ (hbusy : s.busy = true) (hturns : s.turns = [])
    (hk : k + 1 < s.pc.stepsLeft (numBlocks s.message)) (ht : s.afterUops k t) :
    ∃ u, step t = .next u ∧ s.afterUops (k + 1) u := by
  obtain ⟨hinv, hkeep, hcount⟩ := ht
  have hbusy' : t.busy = true := hkeep.busy.trans hbusy
  have hfin : t.pc.op ≠ Op.fin := fun hop => by
    have := (stepsLeft_eq_one_iff (numBlocks s.message) t.pc).2 hop
    omega
  obtain ⟨u, hrun, huinv, hukeep, hucount⟩ := runUop_keeps_inv hinv hbusy' hfin
  rw [message_congr hkeep.msg hkeep.len] at hucount
  exact ⟨u, by rw [step_nil (hkeep.turns.trans hturns), if_pos hbusy', hrun], huinv, hkeep.trans hukeep, by omega⟩

/-- R167: while micro-operations are left the sequencer steps on, one at a time. -/
theorem run_afterUops (h : s.Inv) (hbusy : s.busy = true) (hturns : s.turns = [])
    (hk : k < s.pc.stepsLeft (numBlocks s.message)) :
    ∃ t, Sys2Proof.core.run k s = .next t ∧ s.afterUops k t :=
  run_loop (fun _ hj _ => afterUops_succ hbusy hturns (by omega)) ⟨h, .refl s, rfl⟩

theorem busy_of_init (h : s.Inv) (hpc : s.pc = ⟨Op.init, 0, 0⟩) : s.busy = true := by
  have hrest := h.rest
  rw [hpc] at hrest
  simpa using hrest

/-- R161: at INIT all micro-operations of the hash are left. -/
theorem stepsLeft_of_init (n : Nat) (hpc : s.pc = ⟨Op.init, 0, 0⟩) : s.pc.stepsLeft n = 8 + 162 * n := by
  rw [hpc, Nat.add_comm]
  rfl

end

/-- Settles O55: all micro-operations but one lead to FIN, and FIN ends the hash. -/
theorem hashRunIsHash : Obligations.HashRunIsHash := by
  unfold Obligations.HashRunIsHash
  rintro s m h hpc hturns rfl
  have hbusy := busy_of_init h hpc
  have hleft := stepsLeft_of_init (numBlocks s.message) hpc
  obtain ⟨t, hrun, hinv, hkeep, hcount⟩ :=
    run_afterUops (k := 7 + 162 * numBlocks s.message) h hbusy hturns (by omega)
  have hop := (stepsLeft_eq_one_iff _ _).1 (show t.pc.stepsLeft (numBlocks s.message) = 1 by omega)
  obtain ⟨hfin, hdigest, hhex⟩ := fin_ends hinv.phase hop
  have hstep : step t = .next (endHash t) := by
    rw [step_nil (hkeep.turns.trans hturns), if_pos (hkeep.busy.trans hbusy), hfin]
  rw [message_congr hkeep.msg hkeep.len] at hdigest hhex
  refine ⟨endHash t, ?_, rfl, rfl, rfl, hkeep.msg, hkeep.len, hdigest, hhex⟩
  calc Sys2Proof.core.run (8 + 162 * ((s.message.length + 8) / 64 + 1)) s
      = Sys2Proof.core.run (7 + 162 * numBlocks s.message + 1) s := by
        rw [← numBlocks_eq]
        congr 1
        omega
    _ = Sys2Proof.core.run 1 t := run_add hrun
    _ = .next (endHash t) := run_succ hstep

/-! ## The program by position (R161) -/

theorem getElem?_flatten_replicate {α : Type} {l : List α} {n b r : Nat} (hb : b < n) (hr : r < l.length) :
    (List.replicate n l).flatten[l.length * b + r]? = l[r]? := by
  induction n generalizing b with
  | zero => omega
  | succ n ih =>
    rw [List.replicate_succ, List.flatten_cons]
    cases b with
    | zero => rw [Nat.mul_zero, Nat.zero_add, List.getElem?_append_left hr]
    | succ b =>
      rw [Nat.mul_succ, Nat.add_right_comm, List.getElem?_append_right (Nat.le_add_left ..), Nat.add_sub_cancel,
        ih (by omega)]

theorem blockProgram_length : blockProgram.length = 162 := by simp [blockProgram]

theorem blocks_length (n : Nat) : (List.replicate n blockProgram).flatten.length = 162 * n := by
  simp [blockProgram_length, Nat.mul_comm]

theorem hashProgram_length (n : Nat) : (hashProgram n).length = 8 + 162 * n := by
  simp only [hashProgram, List.length_append, List.length_cons, List.length_nil, blocks_length]
  omega

/-- Steps 6 to 5 + 162 NBLK of R161: micro-operation r of block b. -/
theorem hashProgram_block {n b r : Nat} (hb : b < n) (hr : r < 162) :
    (hashProgram n)[5 + (162 * b + r)]? = blockProgram[r]? := by
  have hlen := blocks_length n
  rw [hashProgram,
    List.getElem?_append_left (by simp only [List.length_append, List.length_cons, List.length_nil]; omega),
    List.getElem?_append_right (by simp)]
  simpa [blockProgram_length] using getElem?_flatten_replicate (l := blockProgram) hb hr

/-- The last three steps of R161. -/
theorem hashProgram_last (n r : Nat) : (hashProgram n)[5 + 162 * n + r]? = [Instr.ser, .hex, .fin][r]? := by
  rw [hashProgram, List.getElem?_append_right] <;>
    simp only [List.length_append, List.length_cons, List.length_nil, blocks_length]
  · congr 1
    omega
  · omega

section
variable {j : BitVec 7}

theorem blockProgram_ldw (hj : j.toNat ≤ 15) : blockProgram[j.toNat]? = some (.ldw j) := by
  simp [blockProgram, List.getElem?_append, Nat.lt_succ_of_le hj]

theorem blockProgram_exp (hlo : 16 ≤ j.toNat) (hhi : j.toNat ≤ 79) : blockProgram[j.toNat]? = some (.exp j) := by
  have hj : BitVec.ofNat 7 (16 + (j.toNat - 16)) = j := by
    rw [Nat.add_sub_cancel' hlo, BitVec.ofNat_toNat, BitVec.setWidth_eq]
  rw [blockProgram, List.append_assoc, List.append_assoc, List.append_assoc, List.getElem?_append_right (by simpa),
    List.getElem?_append_left (by simp; omega)]
  simp [show j.toNat - 16 < 64 by omega, hj]

theorem blockProgram_rnd (hj : j.toNat ≤ 79) : blockProgram[81 + j.toNat]? = some (rndAt j.toNat) := by
  rw [blockProgram, List.getElem?_append_left (by simp; omega), List.getElem?_append_right (by simp)]
  simp [Nat.lt_succ_of_le hj]

theorem blockProgram_seed : blockProgram[80]? = some .seed := by simp [blockProgram]

theorem blockProgram_fold : blockProgram[161]? = some .fold := by simp [blockProgram]

/-- R68, R73: RND j is the form that idx = j decodes to. -/
theorem decodeRnd_eq_rndAt (hj : j.toNat ≤ 79) : decodeRnd j = .ok (rndAt j.toNat) := by
  have hstage : j.toNat / 20 < 4 := by omega
  unfold decodeRnd rndAt stage
  rw [BitVec.ofNat_toNat, BitVec.setWidth_eq]
  generalize j.toNat / 20 = k at hstage
  match k, hstage with
  | 0, _ | 1, _ | 2, _ | 3, _ => rfl

end

/-! ## The micro-operation issued at a pc -/

/-- The sequencer issues the k-th micro-operation of the hash of its message. -/
def State.issues (s : State) (k : Nat) : Prop :=
  ∃ i, decodeUop (fetchWord s) = .ok i ∧ (hashProgram (numBlocks s.message))[k]? = some i

section
variable {s : State} {k : Nat} {i : Instr}
  (hk : s.pc.stepsLeft (numBlocks s.message) + k = 8 + 162 * numBlocks s.message)
  (hd : decodeUop (uopWord s.pc.op s.pc.j) = .ok i)
include hk hd

/-- Steps 1 to 5 of R161. -/
theorem issues_first {r : Nat} (hr : r < 5)
    (hleft : s.pc.stepsLeft (numBlocks s.message) = 162 * numBlocks s.message + 8 - r)
    (hi : (hashProgram (numBlocks s.message))[r]? = some i) : s.issues k := by
  obtain rfl : k = r := by omega
  exact ⟨i, hd, hi⟩

/-- Micro-operation r of the block at the pc; before it 162 - r of this block, the later
blocks and the last three steps are left. -/
theorem issues_block {r : Nat} (hr : r < 162) (hb : s.inBlock)
    (hleft : s.pc.stepsLeft (numBlocks s.message) = 162 * (numBlocks s.message - (s.pc.blk.toNat + 1)) + 165 - r)
    (hi : blockProgram[r]? = some i) : s.issues k := by
  obtain ⟨-, hblk, -⟩ := hb
  obtain rfl : k = 5 + (162 * s.pc.blk.toNat + r) := by omega
  exact ⟨i, hd, by rw [hashProgram_block hblk hr, hi]⟩

/-- The last three steps of R161. -/
theorem issues_last {r : Nat} (hr : r < 3) (hleft : s.pc.stepsLeft (numBlocks s.message) = 3 - r)
    (hi : [Instr.ser, .hex, .fin][r]? = some i) : s.issues k := by
  obtain rfl : k = 5 + 162 * numBlocks s.message + r := by omega
  exact ⟨i, hd, by rw [hashProgram_last, hi]⟩

end

/-- R161: where k micro-operations of the hash came before the pc, the k-th of the program is issued. -/
theorem issues_of_atOp {s : State} {k : Nat} (hs : s.atOp) (hidle : s.pc.op ≠ Op.idle)
    (hk : s.pc.stepsLeft (numBlocks s.message) + k = 8 + 162 * numBlocks s.message) : s.issues k := by
  unfold State.atOp at hs
  split at hs
  case h_1 hop => exact absurd (BitVec.eq_of_toNat_eq hop) hidle
  case h_2 hop =>
    exact issues_first hk (by rw [hs]; rfl) (r := 0) (by decide) (by simp only [PC.stepsLeft, hop]; omega) rfl
  case h_3 hop =>
    obtain ⟨hpc, -⟩ := hs
    exact issues_first hk (by rw [hpc]; rfl) (r := 1) (by decide) (by simp only [PC.stepsLeft, hop]; omega) rfl
  case h_4 hop =>
    obtain ⟨hpc, -⟩ := hs
    exact issues_first hk (by rw [hpc]; rfl) (r := 2) (by decide) (by simp only [PC.stepsLeft, hop]; omega) rfl
  case h_5 hop =>
    obtain ⟨hpc, -⟩ := hs
    exact issues_first hk (by rw [hpc]; rfl) (r := 3) (by decide) (by simp only [PC.stepsLeft, hop]; omega) rfl
  case h_6 hop =>
    obtain ⟨hpc, -⟩ := hs
    exact issues_first hk (by rw [hpc]; rfl) (r := 4) (by decide) (by simp only [PC.stepsLeft, hop]; omega) rfl
  case h_7 hop =>
    obtain ⟨hb, hj, -⟩ := hs
    have hop' : s.pc.op = Op.ldw := BitVec.eq_of_toNat_eq hop
    exact issues_block hk (by rw [hop', decodeUop_ldw hj]) (by omega) hb (by simp only [PC.stepsLeft, hop]; omega)
      (blockProgram_ldw hj)
  case h_8 hop =>
    obtain ⟨hb, hlo, hhi, -⟩ := hs
    have hop' : s.pc.op = Op.exp := BitVec.eq_of_toNat_eq hop
    exact issues_block hk (by rw [hop', decodeUop_exp hlo hhi]) (by omega) hb (by simp only [PC.stepsLeft, hop]; omega)
      (blockProgram_exp hlo hhi)
  case h_9 hop =>
    obtain ⟨hb, hj, -⟩ := hs
    have hop' : s.pc.op = Op.seed := BitVec.eq_of_toNat_eq hop
    exact issues_block hk (by rw [hop', hj]; rfl) (by omega) hb (by simp only [PC.stepsLeft, hop]; omega)
      blockProgram_seed
  case h_10 hop =>
    obtain ⟨hb, hj, -⟩ := hs
    have hop' : s.pc.op = Op.rnd := BitVec.eq_of_toNat_eq hop
    exact issues_block hk (by rw [hop', decodeUop_rnd, decodeRnd_eq_rndAt hj]) (by omega) hb
      (by simp only [PC.stepsLeft, hop]; omega) (blockProgram_rnd hj)
  case h_11 hop =>
    obtain ⟨hb, hj, -⟩ := hs
    have hop' : s.pc.op = Op.fold := BitVec.eq_of_toNat_eq hop
    exact issues_block hk (by rw [hop', hj]; rfl) (by omega) hb (by simp only [PC.stepsLeft, hop]; omega)
      blockProgram_fold
  case h_12 hop =>
    obtain ⟨-, hj, -⟩ := hs
    have hop' : s.pc.op = Op.ser := BitVec.eq_of_toNat_eq hop
    exact issues_last hk (by rw [hop', hj]; rfl) (r := 0) (by decide) (by simp only [PC.stepsLeft, hop]) rfl
  case h_13 hop =>
    obtain ⟨⟨-, hj, -⟩, -⟩ := hs
    have hop' : s.pc.op = Op.hex := BitVec.eq_of_toNat_eq hop
    exact issues_last hk (by rw [hop', hj]; rfl) (r := 1) (by decide) (by simp only [PC.stepsLeft, hop]) rfl
  case h_14 hop =>
    obtain ⟨⟨-, hj, -⟩, -⟩ := hs
    have hop' : s.pc.op = Op.fin := BitVec.eq_of_toNat_eq hop
    exact issues_last hk (by rw [hop', hj]; rfl) (r := 2) (by decide) (by simp only [PC.stepsLeft, hop]) rfl
  case h_15 => exact hs.elim

/-- Settles O56: after k micro-operations the sequencer is busy, and the number left says which it issues next. -/
theorem sequencerRunsTheProgram : Obligations.SequencerRunsTheProgram := by
  unfold Obligations.SequencerRunsTheProgram
  rintro s n h hpc hturns rfl
  refine ⟨hashProgram_length _, fun k hk => ?_⟩
  have hbusy := busy_of_init h hpc
  have hleft := stepsLeft_of_init (numBlocks s.message) hpc
  have hlen := hashProgram_length (numBlocks s.message)
  obtain ⟨t, hrun, hinv, hkeep, hcount⟩ := run_afterUops h hbusy hturns (by omega : k < _)
  have hbusy' : t.busy = true := hkeep.busy.trans hbusy
  have hmsg := message_congr hkeep.msg hkeep.len
  rw [hleft, ← hmsg] at hcount
  obtain ⟨i, hd, hi⟩ := issues_of_atOp hinv.phase (op_ne_idle hinv hbusy') hcount
  rw [hmsg, List.getElem?_eq_getElem hk] at hi
  obtain rfl := Option.some.inj hi
  exact ⟨t, hrun, hbusy', hd⟩

/-! # The next-pc table (R162) -/

/-- R132: a round ends with the loop over j (R163). -/
theorem roundStep_pc {f : Word → Word → Word → Word} {k : Word} {j : BitVec 7} {s t : State}
    (ht : roundStep f k j s = .next t) : t.pc = loopPc Op.rnd 79 ⟨Op.fold, s.pc.blk, 0⟩ s.pc.blk j := by
  obtain ⟨v, w, -, -, rfl⟩ := roundStep_next.1 ht
  rfl

/-- Each row of R70 ends with its own row of R162; only FOLD asks for NBLK. -/
theorem exec_row_pc {s t : State} {n : BitVec 56} {r : UopRow} (hr : r ∈ uopRows) (hop : s.pc.op = uopOp r.pat)
    (hn : s.pc.op = Op.fold → s.nblk = some n) (ht : exec (r.make s.pc.j) s = .next t) :
    t.pc = pcAfter n.toNat s.pc := by
  unfold pcAfter
  rw [hop] at hn ⊢
  simp only [uopRows, List.mem_cons, List.not_mem_nil, or_false] at hr
  rcases hr with rfl | rfl | rfl | rfl | rfl | rfl | rfl | rfl | rfl | rfl | rfl | rfl | rfl | rfl | rfl | rfl
  · obtain rfl := execInit_next.1 ht; rfl
  · obtain ⟨vs, -, -, -, -, rfl⟩ := execPcpy_next.1 ht; rfl
  · obtain ⟨pl, -, -, rfl⟩ := execPmrk_next.1 ht; rfl
  · obtain ⟨pl, -, -, rfl⟩ := execPzer_next.1 ht; rfl
  · obtain ⟨pl, -, -, rfl⟩ := execPlen_next.1 ht; rfl
  · obtain ⟨-, v, -, rfl⟩ := execLdw_next.1 ht; rfl
  · obtain ⟨-, w3, w8, w14, w16, -, -, -, -, rfl⟩ := execExp_next.1 ht; rfl
  · obtain ⟨v, -, rfl⟩ := execSeed_next.1 ht; rfl
  · exact roundStep_pc (execRndCh_next.1 ht).2
  · exact roundStep_pc (execRndPar1_next.1 ht).2
  · exact roundStep_pc (execRndMaj_next.1 ht).2
  · exact roundStep_pc (execRndPar2_next.1 ht).2
  · obtain ⟨h, v, m, -, -, hm, rfl⟩ := execFold_next.1 ht
    obtain rfl := Option.some.inj (hm.symm.trans (hn rfl))
    rfl
  · obtain ⟨v, -, rfl⟩ := execSer_next.1 ht; rfl
  · obtain ⟨xs, -, -, rfl⟩ := execHex_next.1 ht; rfl
  · obtain rfl := execFin_next.1 ht; rfl

/-- A step of the sequencer takes the pc to the next row of R162. -/
theorem runUop_pc {s t : State} {n : BitVec 56} (hn : s.pc.op = Op.fold → s.nblk = some n)
    (ht : runUop s = .next t) : t.pc = pcAfter n.toNat s.pc := by
  cases hd : decodeUop (fetchWord s) with
  | error f => rw [runUop_error hd] at ht; cases ht
  | ok i =>
    rw [runUop_ok hd] at ht
    obtain ⟨r, hr, hmatch, rfl⟩ := (decoderIsTheOpcodeMap _ _).1 hd
    obtain ⟨hop, -⟩ := (UopRow.matches_iff hr _).1 hmatch
    rw [fetchWord, uopOp_uopWord] at hop
    rw [fetchWord, uopIdx_uopWord] at ht
    exact exec_row_pc hr (BitVec.eq_of_toNat_eq hop.symm) hn ht

/-- Settles O49: the rows of a running sequencer, the word of IDLE, and an accepted START. -/
theorem nextPcTable : Obligations.NextPcTable := by
  unfold Obligations.NextPcTable
  refine ⟨?row, ?idle, ?start⟩
  case row =>
    intro s t ts n hbusy hturns hn _ ht
    have hn' : s.pc.op = Op.fold → s.nblk = some n := hn.resolve_right ∘ not_not_intro
    rcases hturns with hturns | hturns
    · rw [step_nil hturns, if_pos hbusy] at ht
      exact runUop_pc hn' ht
    · rw [step_core hturns, if_pos hbusy] at ht
      exact runUop_pc (s := s.setTurns ts) hn' ht
  case idle =>
    intro s i hpc
    have hidle : decodeUop (fetchWord s) = .error .idleOp := by rw [fetchWord, hpc]; rfl
    simp [hidle]
  case start =>
    intro s t clearFirst hrest ht
    obtain rfl := execStart_next.1 ht
    rw [hrest]
    rfl

/-- Settles O26: FOLD's one test fails, so it goes on to SER (R164). -/
theorem foldPastTheLastBlock : Obligations.FoldPastTheLastBlock := by
  unfold Obligations.FoldPastTheLastBlock
  intro s h v n hH hv hn hpast
  exact ⟨_, execFold_next.2 ⟨h, v, n, hH, hv, hn, rfl⟩, if_neg (by omega)⟩

end Sys2Proof.Machine

/-! # The host's writes: dispatch, START, CLEAR and PUSH (R182 to R187) -/

namespace Sys2Proof.Machine

section
variable {s : State} {off : Nat} {v : Word} {ts : List Turn}

/-- An aligned 32-bit write on the host's turn. -/
theorem step_write (ha : off % 4 = 0) (ht : s.turns = .host (.write off .word v) :: ts) :
    step s = hostWrite off v (s.setTurns ts) := by
  rw [step_host ht, hostStep_write (legalAccess_word ha)]

theorem step_command {i : Instr} (ha : off % 4 = 0) (ht : s.turns = .host (.write off .word v) :: ts)
    (hi : decodeWrite off v = .ok i) : step s = exec i (s.setTurns ts) := by
  rw [step_write ha ht, hostWrite_ok hi]

theorem step_noCommand {f : DecodeError} (ha : off % 4 = 0) (ht : s.turns = .host (.write off .word v) :: ts)
    (hf : decodeWrite off v = .error f) : step s = .next (s.setTurns ts) := by
  rw [step_write ha ht, hostWrite_error hf]

end

/-- Settles O37: the turn is used up, and then the write is what it decodes to. -/
theorem stepRunsTheHostCommand : Obligations.StepRunsTheHostCommand := by
  unfold Obligations.StepRunsTheHostCommand
  exact fun s off v ts ha ht => ⟨fun i => step_command ha ht, fun f => step_noCommand ha ht⟩

/-- Settles O33: a command that reaches a busy core does nothing, and neither does a write without a command. -/
theorem writesIgnoredWhileBusy : Obligations.WritesIgnoredWhileBusy := by
  unfold Obligations.WritesIgnoredWhileBusy
  intro s off v ts hbusy ha ht
  cases hw : decodeWrite off v with
  | ok i => exact (step_command ha ht hw).trans (exec_command_busy (s := s.setTurns ts) hw hbusy)
  | error f => exact step_noCommand ha ht hw

/-! ## The three commands at rest and while BUSY -/

section
variable {s : State}

theorem exec_start_rest (hrest : s.busy = false) (c : Bool) :
    exec (.start c) s = .next (beginHash (if c then clearMessage s else s)) :=
  execStart_next.2 (by rw [hrest, if_neg Bool.false_ne_true])

theorem exec_clear_rest (hrest : s.busy = false) : exec .clear s = .next (clearMessage s) :=
  execClear_next.2 (by rw [hrest, if_neg Bool.false_ne_true])

/-- What an accepted PUSH does (R186). -/
def State.pushed (s : State) (b : Byte) : State := (s.setMsg (s.msg.write s.len.toNat b)).setLen (s.len + 1)

theorem read_pushed (s : State) (b : Byte) (a : Nat) :
    (s.pushed b).msg.read a = if a = s.len.toNat then some b else s.msg.read a :=
  (read_write ..).trans (if_congr eq_comm rfl rfl)

theorem exec_push_rest (hrest : s.busy = false) (hroom : s.len.toNat < s.msgCap) (b : Byte) :
    exec (.push b) s = .next (s.pushed b) :=
  execPush_next.2 (if_pos ⟨hrest, hroom⟩).symm

theorem exec_push_ignored (h : s.busy = true ∨ (s.msgCap : Nat) ≤ s.len.toNat) (b : Byte) :
    exec (.push b) s = .next s := by
  refine execPush_next.2 (if_neg ?_).symm
  rintro ⟨hrest, hroom⟩
  rcases h with hbusy | hfull
  · simp [hbusy] at hrest
  · omega

end

/-- Settles O30: the updates of an accepted START are the record written out. -/
theorem startBeginsAHash : Obligations.StartBeginsAHash := by
  unfold Obligations.StartBeginsAHash
  intro s
  exact ⟨fun hrest => exec_start_rest hrest false, fun hrest => exec_start_rest hrest true,
    fun hbusy _ => execStart_next.2 (if_pos hbusy).symm⟩

/-- Settles O31: CLEAR's one update is the record written out. -/
theorem clearDiscardsTheMessage : Obligations.ClearDiscardsTheMessage := by
  unfold Obligations.ClearDiscardsTheMessage
  exact fun s => ⟨exec_clear_rest, fun hbusy => execClear_next.2 (if_pos hbusy).symm⟩

/-- Settles O32: below MSG_CAP LEN does not wrap, and the one byte written is MSG[LEN]. -/
theorem pushAppendsAByte : Obligations.PushAppendsAByte := by
  unfold Obligations.PushAppendsAByte
  intro s b
  refine ⟨fun hrest hroom => ?accepted, fun h => exec_push_ignored h b⟩
  case accepted =>
    exact ⟨_, _, len_succ hroom, exec_push_rest hrest hroom b, read_pushed s b⟩

end Sys2Proof.Machine

/-! # Reset, the resting sequencer and early result reads (R220, R230, U1, U18) -/

namespace Sys2Proof.Machine

/-- Settles O39: the reset event, field by field, after the turn is used up. -/
theorem resetFromAnyState : Obligations.ResetFromAnyState := by
  unfold Obligations.ResetFromAnyState
  intro s ts ht
  exact step_host ht

/-- Settles O38, by whether a turn is left. -/
theorem restingSequencerHasNoStep : Obligations.RestingSequencerHasNoStep := by
  unfold Obligations.RestingSequencerHasNoStep
  intro s ts hrest
  have hnot : ¬ s.busy = true := by simp [hrest]
  exact ⟨fun ht => (step_nil ht).trans (if_neg hnot), fun ht => (step_core ht).trans (if_neg hnot)⟩

/-- R230: while DONE = 0 a read of a result register answers a free value. -/
theorem step_read_free {s : State} {off : Nat} {ts : List Turn} {r : Space × Nat} (ha : off % 4 = 0)
    (ht : s.turns = .host (.read off .word) :: ts) (hr : resultReg off = some r) (hd : s.done = false) :
    step s = .next (((s.setTurns ts).setRdata (Config.freeWord s.freeIdx)).bumpFree) := by
  rw [step_read ha ht]
  exact hostRead_free (s := s.setTurns ts) hr hd

/-- Settles O44 for the five DIGEST and the ten HEX registers. -/
theorem resultReadsBeforeDone : Obligations.ResultReadsBeforeDone := by
  unfold Obligations.ResultReadsBeforeDone
  rintro s k ts hd (⟨hk, ht⟩ | ⟨hk, ht⟩)
  · exact step_read_free (by omega) ht (resultReg_digest hk) hd
  · exact step_read_free (by omega) ht (resultReg_hexstr hk) hd

end Sys2Proof.Machine

/-! # From the invariant every legal turn goes on (R57, R167, R236)

The sequencer's turn is one of the micro-operations that `advances_of_inv` covers, or FIN. Of the host's turns only a result
read needs the invariant: while DONE = 1 both result memories hold all their bytes. -/

namespace Sys2Proof.Machine

section
variable {s : State}

theorem runUop_isNext (h : s.Inv) (hbusy : s.busy = true) : isNext (runUop s) := by
  by_cases hfin : s.pc.op = Op.fin
  · obtain ⟨hrun, -⟩ := fin_ends h.phase hfin
    exact ⟨_, hrun⟩
  · obtain ⟨t, hrun, -⟩ := advances_of_inv h hbusy hfin
    exact ⟨t, hrun⟩

/-! ## Reads -/

/-- A 32-bit load inside a space that holds all its bytes. -/
theorem load32_isOk {sp : Space} {cap a : Nat} {m : Memory} {vs : List Byte} (hlen : vs.length = cap)
    (hm : m.holds 0 vs) (ha : a + 4 ≤ cap) : ∃ v, load32 sp cap m a = .ok v := by
  obtain ⟨v, hv⟩ := exists_unbe32 (vs := (vs.drop a).take 4) (by rw [List.length_take, List.length_drop]; omega)
  have hslice := holds_slice hm a 4
  rw [← hv, Nat.zero_add] at hslice
  exact ⟨v, load32_of_holds ha hslice⟩

/-- R23, R24: a result register shows four bytes inside its memory. -/
theorem loadResult_isOk {m : List Byte} {off : Nat} {r : Space × Nat} (hdigest : s.digest.holds 0 (digestOf m))
    (hhex : s.hexstr.holds 0 (hashOf m)) (hr : resultReg off = some r) : ∃ v, loadResult s r = .ok v := by
  unfold resultReg at hr
  split_ifs at hr <;> obtain rfl := Option.some.inj hr
  · exact load32_isOk (digestOf_length m) hdigest (by omega)
  · exact load32_isOk (hashOf_length m) hhex (by omega)

theorem hostRead_isNext (h : s.Inv) (off : Nat) : isNext (hostRead off s) := by
  cases hr : resultReg off with
  | none => exact ⟨_, hostRead_plain hr s⟩
  | some r =>
    cases hd : s.done with
    | false => exact ⟨_, hostRead_free hr hd⟩
    | true =>
      obtain ⟨-, m, -, hdigest, hhex⟩ := h.result hd
      obtain ⟨v, hv⟩ := loadResult_isOk hdigest hhex hr
      exact ⟨_, by rw [hostRead_result hr hd, hv, onOk_ok]⟩

/-! ## Writes -/

/-- R183 to R187: every write is accepted or ignored, whatever the state. -/
theorem hostWrite_isNext (off : Nat) (v : Word) (s : State) : isNext (hostWrite off v s) := by
  cases hw : decodeWrite off v with
  | error f => exact ⟨s, hostWrite_error hw s⟩
  | ok i =>
    rw [hostWrite_ok hw]
    obtain ⟨c, rfl⟩ | rfl | ⟨b, rfl⟩ := decodeWrite_command hw
    · exact ⟨_, execStart_next.2 rfl⟩
    · exact ⟨_, execClear_next.2 rfl⟩
    · exact ⟨_, execPush_next.2 rfl⟩

theorem hostStep_isNext {a : HostAction} (h : s.Inv) (hlegal : turnLegal (.host a) = true) : isNext (hostStep a s) := by
  cases a with
  | reset => exact ⟨s.toReset, rfl⟩
  | read off size =>
    rw [hostStep_read hlegal]
    exact hostRead_isNext h off
  | write off size v =>
    rw [hostStep_write hlegal]
    exact hostWrite_isNext off v s

end

/-- Settles O52, by whose turn it is. -/
theorem invariantStatesStepOn : Obligations.InvariantStatesStepOn := by
  unfold Obligations.InvariantStatesStepOn
  intro s h
  refine ⟨fun u ts hturns hlegal => ?turn, fun hturns hbusy => ?alone⟩
  case turn =>
    have h' := inv_setTurns h ts
    cases u with
    | core =>
      rw [step_core hturns]
      split_ifs with hbusy
      · exact runUop_isNext h' hbusy
      · exact ⟨_, rfl⟩
    | host a =>
      rw [step_host hturns]
      exact hostStep_isNext h' hlegal
  case alone =>
    rw [step_nil hturns, if_pos hbusy]
    exact runUop_isNext h hbusy

end Sys2Proof.Machine

/-! # The host's procedure HASHMSG (R190, R191)

CLEAR empties the message, each PUSH appends one byte to it, START begins the hash, and from INIT the run of a hash applies.
The invariant stands by `stepKeepsTheInvariant` at each of these steps. -/

namespace Sys2Proof.Machine

section
variable {s : State} {ts : List Turn}

/-- R183: without LEN there is no message. -/
theorem message_clearMessage (s : State) : (clearMessage s).message = [] := rfl

/-- A PUSH appends its byte to the message (R29, R186). -/
theorem message_pushed (hroom : s.len.toNat < s.msgCap) (b : Byte) : (s.pushed b).message = s.message ++ [b] := by
  have hlen : (s.pushed b).len.toNat = s.len.toNat + 1 := len_succ hroom
  have hold : ∀ i ∈ List.range s.len.toNat, ((s.pushed b).msg.read i).getD 0 = (s.msg.read i).getD 0 := by
    intro i hi
    rw [read_pushed, if_neg (List.mem_range.1 hi).ne]
  rw [State.message, hlen, List.range_succ, List.map_append, List.map_congr_left hold, List.map_singleton, read_pushed,
    if_pos rfl]
  rfl

/-! ## Each write as a step -/

theorem step_wr_clear (hrest : s.busy = false) (hturns : s.turns = wr ctrlOff 0x2 :: ts) :
    step s = .next (clearMessage (s.setTurns ts)) :=
  (step_command rfl hturns rfl).trans (exec_clear_rest (s := s.setTurns ts) hrest)

theorem step_wr_start (hrest : s.busy = false) (hturns : s.turns = wr ctrlOff 0x1 :: ts) :
    step s = .next (beginHash (s.setTurns ts)) :=
  (step_command rfl hturns rfl).trans (exec_start_rest (s := s.setTurns ts) hrest false)

theorem decodeWrite_wr_push (b : Byte) : decodeWrite msgPushOff (b.setWidth 32) = .ok (.push b) := by
  rw [decodeWrite_push, BitVec.setWidth_setWidth_of_le _ (by decide), BitVec.setWidth_eq]

theorem step_wr_push {b : Byte} (hrest : s.busy = false) (hroom : s.len.toNat < s.msgCap)
    (hturns : s.turns = wr msgPushOff (b.setWidth 32) :: ts) :
    ∃ t, step s = .next t ∧ t.busy = false ∧ t.turns = ts ∧ t.msgCap = s.msgCap ∧ t.message = s.message ++ [b] :=
  ⟨(s.setTurns ts).pushed b,
    (step_command rfl hturns (decodeWrite_wr_push b)).trans (exec_push_rest (s := s.setTurns ts) hrest hroom b),
    hrest, rfl, rfl, message_pushed (s := s.setTurns ts) hroom b⟩

/-- The PUSHes of a sequence that still fits append it to the message, byte by byte. -/
theorem run_pushes (bs : List Byte) {s : State} (h : s.Inv) (hrest : s.busy = false)
    (hroom : s.message.length + bs.length ≤ s.msgCap)
    (hturns : s.turns = bs.map (fun b => wr msgPushOff (b.setWidth 32)) ++ ts) :
    ∃ t, Sys2Proof.core.run bs.length s = .next t ∧ t.Inv ∧ t.busy = false ∧ t.turns = ts ∧
      t.message = s.message ++ bs := by
  induction bs generalizing s with
  | nil => exact ⟨s, rfl, h, hrest, hturns, (List.append_nil _).symm⟩
  | cons b bs ih =>
    obtain ⟨hlen, -⟩ := message_bytes h.message.2
    rw [List.length_cons] at hroom
    rw [List.map_cons, List.cons_append] at hturns
    obtain ⟨t, hstep, htrest, htturns, htcap, htmsg⟩ := step_wr_push hrest (by omega) hturns
    have htroom : t.message.length + bs.length ≤ t.msgCap := by
      rw [htmsg, htcap, List.length_append, List.length_singleton]
      omega
    obtain ⟨u, hrun, hinv, hurest, huturns, humsg⟩ := ih (stepKeepsTheInvariant s t h hstep) htrest htroom htturns
    refine ⟨u, (run_succ hstep).trans hrun, hinv, hurest, huturns, ?_⟩
    rw [humsg, htmsg, List.append_assoc, List.singleton_append]

end

/-- Settles O57: after CLEAR and the PUSHes the message is m, and START leads to the run of its hash. -/
theorem hashMsgGivesTheHash : Obligations.HashMsgGivesTheHash := by
  unfold Obligations.HashMsgGivesTheHash
  intro s m h hrest hfits hturns
  rw [hashMsgTurns, List.cons_append] at hturns
  have hclear := step_wr_clear hrest hturns
  obtain ⟨t, hpushes, hinv, hrest', hturns', hmsg⟩ :=
    run_pushes m (stepKeepsTheInvariant _ _ h hclear) hrest
      (by rwa [message_clearMessage, List.length_nil, Nat.zero_add]) rfl
  rw [message_clearMessage, List.nil_append] at hmsg
  have hstart := step_wr_start hrest' hturns'
  obtain ⟨u, hhash, hdone, hbusy, -, hmsgMem, hlen, hdigest, hhex⟩ :=
    hashRunIsHash _ m (stepKeepsTheInvariant _ _ hinv hstart) rfl rfl hmsg
  rw [← numBlocks_eq] at hhash
  refine ⟨u, ?run, hdone, hbusy, (message_congr hmsgMem hlen).trans hmsg, hdigest, hhex⟩
  case run =>
    calc Sys2Proof.core.run (m.length + 2 + (8 + 162 * numBlocks m)) s
        = Sys2Proof.core.run (m.length + (8 + 162 * numBlocks m + 1) + 1) s := by congr 1; omega
      _ = Sys2Proof.core.run (m.length + (8 + 162 * numBlocks m + 1)) _ := run_succ hclear
      _ = Sys2Proof.core.run (8 + 162 * numBlocks m + 1) t := run_add hpushes
      _ = Sys2Proof.core.run (8 + 162 * numBlocks m) _ := run_succ hstart
      _ = .next u := hhash

end Sys2Proof.Machine

/-! # The encoder and the decoder (R66, R70 to R72) -/

namespace Sys2Proof

/-! ## Each form of decoding -/

theorem decodeN_ok {idx : BitVec 7} {i i' : Instr} : decodeN idx i' = .ok i ↔ idx = 0 ∧ i = i' := by
  unfold decodeN
  split_ifs with h
  · simp only [Except.ok.injEq, h, true_and, eq_comm]
  · exact iff_of_false (by simp) fun hi => h hi.1

theorem decodeX_ok {lo hi : Nat} {idx : BitVec 7} {mk : BitVec 7 → Instr} {i : Instr} :
    decodeX lo hi idx mk = .ok i ↔ idxWithin lo hi idx = true ∧ i = mk idx := by
  unfold decodeX
  split_ifs with h <;> simp [h, @eq_comm Instr i]

/-- R68: an index in a stage's range names the form of that stage. -/
theorem decodeRnd_ok {j : BitVec 7} {i : Instr} (h : decodeRnd j = .ok i) :
    i.wf = true ∧ encode i = .uop (uopWord Op.rnd j) := by
  rw [decodeRnd_eq] at h
  split_ifs at h <;> obtain rfl := Except.ok.inj h <;> exact ⟨Machine.idxWithin_iff.2 (by omega), rfl⟩

/-- Settles O8: format N words and the writes to CTRL are evaluated; a format X index is in the range its branch tests. -/
theorem decodeAfterEncode : Obligations.DecodeAfterEncode := by
  unfold Obligations.DecodeAfterEncode
  intro i hwf
  cases i with
  | init | pcpy | pmrk | pzer | plen | seed | fold | ser | hex | fin | clear => rfl
  | ldw j => exact Machine.decodeUop_ldw (Machine.idxWithin_iff.1 hwf).2
  | exp j =>
    obtain ⟨hlo, hhi⟩ := Machine.idxWithin_iff.1 hwf
    exact Machine.decodeUop_exp hlo hhi
  | rndCh j | rndPar1 j | rndMaj j | rndPar2 j =>
    have hj := Machine.idxWithin_iff.1 hwf
    refine (Machine.decodeUop_rnd j).trans ?_
    rw [decodeRnd_eq]
    grind
  | start c => cases c <;> rfl
  | push b => exact Machine.decodeWrite_wr_push b

/-- Settles O9: each branch of the decoder tests the index that the encoding of its instruction has. -/
theorem encodeAfterDecode : Obligations.EncodeAfterDecode := by
  unfold Obligations.EncodeAfterDecode
  intro w i h
  obtain ⟨op, idx, rfl⟩ : ∃ op idx, uopWord op idx = w := ⟨_, _, uopWord_fields w⟩
  simp only [decodeUop, uopOp_uopWord, uopIdx_uopWord] at h
  have word {op' : BitVec 4} (hop : op.toNat = op'.toNat) : Code.uop (uopWord op' idx) = .uop (uopWord op idx) := by
    rw [BitVec.eq_of_toNat_eq hop]
  split at h
  case h_1 => cases h
  case h_7 hop | h_8 hop => -- LDW, EXP
    obtain ⟨hj, rfl⟩ := decodeX_ok.1 h
    exact ⟨hj, word hop⟩
  case h_10 hop => -- RND
    obtain ⟨hwf, henc⟩ := decodeRnd_ok h
    exact ⟨hwf, henc.trans (word hop)⟩
  case h_15 => cases h
  all_goals -- the format N branches
    rename_i hop
    obtain ⟨rfl, rfl⟩ := decodeN_ok.1 h
    exact ⟨rfl, word hop⟩

end Sys2Proof
